-- ==== Sys2Proof/Word.lean ====
section
/-! DEFINITION. The two bit-vector types of the block (00_scope.md R6, R7): a byte is 8 bits, a word is 16 bits. -/

namespace Sys2Proof

/-- 8 bits: a register A, X or Y, a memory cell, an opcode or operand byte (00_scope.md R7). -/
abbrev Byte := BitVec 8

/-- 16 bits: `pc`, `sp`, an operand word (00_scope.md R6, R7). -/
abbrev Word := BitVec 16

end Sys2Proof
end

