-- ==== Sys2Proof/Config.lean ====
section
/-! DEFINITION. The implementation parameters of 00_scope.md R6. All are fixed but STRICT_UNHANDLED, which the spec
leaves OPEN: the machine takes it as an argument, and `strictUnhandled` is only the default that `step` uses.
Costs of 0 (an index addition, a page crossing: D7) have no term anywhere. There are no free values: the spec leaves
no value open (93_implementation_defined.md, the paragraph after U21). -/

namespace Sys2Proof.Config

/-- `CAPACITY`: the number of bytes in the address space (00_scope.md R6, 20_memory.md R60). -/
def capacity : Nat := 65536

/-- `STACK_BASE` (00_scope.md R6, 44_stack.md R190). -/
def stackBase : Word := 0x0100#16

/-- `RESET_PC`, a literal, never read from memory (00_scope.md R6, 70_reset_and_hazards.md R232). -/
def resetPc : Word := 0xFFFC#16

/-- `RESET_SP` (00_scope.md R6, 10_state.md R44). -/
def resetSp : Word := 0x0100#16

/-- The cost of one byte the engine moves to or from the AddressSpace (00_scope.md R6, 41_engine.md R135). -/
def accessCost : Int := 1

/-- `STRICT_UNHANDLED`'s default (00_scope.md R6, 60_exceptions.md R204, D11): diagnose and continue.
The machine is defined for both settings (`stepWith`); see assumption 2. -/
def strictUnhandled : Bool := false

end Sys2Proof.Config
end

