-- ==== Sys2Proof/Syntax.lean ====
section
/-! DEFINITION. The instructions: one constructor per row of spec/opcode_table.json (30_encoding.md R93). An operand is
the byte `b` that the modes IMM, ZP, ZPX, ZPY, INDX and INDY fetch, or the word `w = h ++ l` that ABS, ABSX and ABSY
fetch (30_encoding.md R92). -/

namespace Sys2Proof

/-- The 31 instructions of 30_encoding.md R93, in the table's order. -/
inductive Instr where
  /-- `LDA #$bb` (R151). -/
  | ldaImm (b : Byte)
  /-- `LDA $bb` (R152). -/
  | ldaZp (b : Byte)
  /-- `LDA $bb,X` (R153). -/
  | ldaZpx (b : Byte)
  /-- `LDA $hhll` (R154). -/
  | ldaAbs (w : Word)
  /-- `LDA $hhll,X` (R155). -/
  | ldaAbsx (w : Word)
  /-- `LDA $hhll,Y` (R156). -/
  | ldaAbsy (w : Word)
  /-- `LDA ($bb,X)` (R157). -/
  | ldaIndx (b : Byte)
  /-- `LDA ($bb),Y` (R158). -/
  | ldaIndy (b : Byte)
  /-- `LDX #$bb` (R159). -/
  | ldxImm (b : Byte)
  /-- `LDX $bb` (R160). -/
  | ldxZp (b : Byte)
  /-- `LDX $bb,Y` (R161). -/
  | ldxZpy (b : Byte)
  /-- `LDX $hhll` (R162). -/
  | ldxAbs (w : Word)
  /-- `LDX $hhll,Y` (R163). -/
  | ldxAbsy (w : Word)
  /-- `LDY #$bb` (R164). -/
  | ldyImm (b : Byte)
  /-- `LDY $bb` (R165). -/
  | ldyZp (b : Byte)
  /-- `LDY $bb,X` (R166). -/
  | ldyZpx (b : Byte)
  /-- `LDY $hhll` (R167). -/
  | ldyAbs (w : Word)
  /-- `LDY $hhll,X` (R168). -/
  | ldyAbsx (w : Word)
  /-- `STA $bb` (R171). -/
  | staZp (b : Byte)
  /-- `STA $bb,X` (R172). -/
  | staZpx (b : Byte)
  /-- `STA $hhll` (R173). -/
  | staAbs (w : Word)
  /-- `STA $hhll,X` (R174). -/
  | staAbsx (w : Word)
  /-- `STA $hhll,Y` (R175). -/
  | staAbsy (w : Word)
  /-- `STA ($bb,X)` (R176). -/
  | staIndx (b : Byte)
  /-- `STA ($bb),Y` (R177). -/
  | staIndy (b : Byte)
  /-- `STX $bb` (R178). -/
  | stxZp (b : Byte)
  /-- `STX $bb,Y` (R179). -/
  | stxZpy (b : Byte)
  /-- `STX $hhll` (R180). -/
  | stxAbs (w : Word)
  /-- `STY $bb` (R181). -/
  | styZp (b : Byte)
  /-- `STY $bb,X` (R182). -/
  | styZpx (b : Byte)
  /-- `STY $hhll` (R183). -/
  | styAbs (w : Word)
deriving DecidableEq, Repr

end Sys2Proof
end

