-- ==== Sys2Proof/WellFormed.lean ====
section
/-! DEFINITION. Which descriptors the architecture has: the register-mode pairs of 30_encoding.md R93, the format and
length of R90 and R96, and the well-formedness of an instruction. Operands carry their width in their type, so a term
of `Instr` cannot hold an operand that does not fit; what remains to check is that the instruction's action, register
and mode are a pair the table has. -/

namespace Sys2Proof

/-- The general registers an instruction names (10_state.md R20). -/
inductive Reg where
  | a
  | x
  | y
deriving DecidableEq, Repr

/-- The two semantic actions of an OpcodeTable entry (30_encoding.md R91). -/
inductive Action where
  | load
  | store
deriving DecidableEq, Repr

/-- The nine mode tags (00_scope.md R11, 40_addressing_modes.md R110). -/
inductive Mode where
  | imm
  | zp
  | zpx
  | zpy
  | abs
  | absx
  | absy
  | indx
  | indy
deriving DecidableEq, Repr

/-- An OpcodeTable entry less its key: the mode tag and the action with its register (30_encoding.md R91). -/
structure Entry where
  action : Action
  reg : Reg
  mode : Mode
deriving DecidableEq, Repr

/-- The number of operand bytes a mode fetches (30_encoding.md R90, 40_addressing_modes.md R120). -/
def Mode.operandBytes : Mode → Nat
  | .abs | .absx | .absy => 2
  | .imm | .zp | .zpx | .zpy | .indx | .indy => 1

/-- The modes that exist for an action and a register (30_encoding.md R93). -/
def validModes : Action → Reg → List Mode
  | .load, .a => [.imm, .zp, .zpx, .abs, .absx, .absy, .indx, .indy]
  | .load, .x => [.imm, .zp, .zpy, .abs, .absy]
  | .load, .y => [.imm, .zp, .zpx, .abs, .absx]
  | .store, .a => [.zp, .zpx, .abs, .absx, .absy, .indx, .indy]
  | .store, .x => [.zp, .zpy, .abs]
  | .store, .y => [.zp, .zpx, .abs]

/-- A descriptor the architecture has: its mode exists for its action and register (30_encoding.md R93). -/
def Entry.valid (e : Entry) : Bool := (validModes e.action e.reg).contains e.mode

/-- The descriptor of each row of the opcode table (30_encoding.md R93). -/
def Instr.entry : Instr → Entry
  | .ldaImm _ => ⟨.load, .a, .imm⟩
  | .ldaZp _ => ⟨.load, .a, .zp⟩
  | .ldaZpx _ => ⟨.load, .a, .zpx⟩
  | .ldaAbs _ => ⟨.load, .a, .abs⟩
  | .ldaAbsx _ => ⟨.load, .a, .absx⟩
  | .ldaAbsy _ => ⟨.load, .a, .absy⟩
  | .ldaIndx _ => ⟨.load, .a, .indx⟩
  | .ldaIndy _ => ⟨.load, .a, .indy⟩
  | .ldxImm _ => ⟨.load, .x, .imm⟩
  | .ldxZp _ => ⟨.load, .x, .zp⟩
  | .ldxZpy _ => ⟨.load, .x, .zpy⟩
  | .ldxAbs _ => ⟨.load, .x, .abs⟩
  | .ldxAbsy _ => ⟨.load, .x, .absy⟩
  | .ldyImm _ => ⟨.load, .y, .imm⟩
  | .ldyZp _ => ⟨.load, .y, .zp⟩
  | .ldyZpx _ => ⟨.load, .y, .zpx⟩
  | .ldyAbs _ => ⟨.load, .y, .abs⟩
  | .ldyAbsx _ => ⟨.load, .y, .absx⟩
  | .staZp _ => ⟨.store, .a, .zp⟩
  | .staZpx _ => ⟨.store, .a, .zpx⟩
  | .staAbs _ => ⟨.store, .a, .abs⟩
  | .staAbsx _ => ⟨.store, .a, .absx⟩
  | .staAbsy _ => ⟨.store, .a, .absy⟩
  | .staIndx _ => ⟨.store, .a, .indx⟩
  | .staIndy _ => ⟨.store, .a, .indy⟩
  | .stxZp _ => ⟨.store, .x, .zp⟩
  | .stxZpy _ => ⟨.store, .x, .zpy⟩
  | .stxAbs _ => ⟨.store, .x, .abs⟩
  | .styZp _ => ⟨.store, .y, .zp⟩
  | .styZpx _ => ⟨.store, .y, .zpx⟩
  | .styAbs _ => ⟨.store, .y, .abs⟩

/-- The instruction's length in bytes: the opcode byte and its operand bytes (30_encoding.md R90, R96). -/
def Instr.length (i : Instr) : Nat := 1 + i.entry.mode.operandBytes

/-- An instruction is well formed when its descriptor is one the architecture has. -/
def Instr.wellFormed (i : Instr) : Bool := i.entry.valid

/-- The conventional mnemonic of an action and a register (30_encoding.md R97): a label with no effect (R91, C3). -/
def mnemonicOf : Action → Reg → String
  | .load, .a => "LDA"
  | .load, .x => "LDX"
  | .load, .y => "LDY"
  | .store, .a => "STA"
  | .store, .x => "STX"
  | .store, .y => "STY"

end Sys2Proof
end

