-- ==== Sys2Proof/Decode.lean ====
section
/-! DEFINITION. The decoder, a dispatch by the value of the whole opcode byte (30_encoding.md R94, 41_engine.md R133),
total on any bytes and rejecting by name, and the encoder written from the same table of 30_encoding.md R93. -/

namespace Sys2Proof

/-- A word from its two bytes, `h ++ l`: the byte that comes first in memory is bits 7:0 (20_memory.md R65,
30_encoding.md R92). -/
def assembleWord (l h : Byte) : Word := h ++ l

/-- Bits 7:0 of a word (00_scope.md R7). -/
def lowByte (w : Word) : Byte := w.extractLsb' 0 8

/-- Bits 15:8 of a word (00_scope.md R7). -/
def highByte (w : Word) : Byte := w.extractLsb' 8 8

/-- The shape of an assigned opcode: format F2 takes one operand byte, F3 takes two (30_encoding.md R90). -/
inductive Shape where
  | f2 (make : Byte → Instr)
  | f3 (make : Word → Instr)

/-- OPCODE_TABLE: the 31 assigned opcode bytes (30_encoding.md R93). -/
def opcodeTable : List (Byte × Shape) :=
  [
    (0xA9#8, .f2 .ldaImm),
    (0xA5#8, .f2 .ldaZp),
    (0xB5#8, .f2 .ldaZpx),
    (0xAD#8, .f3 .ldaAbs),
    (0xBD#8, .f3 .ldaAbsx),
    (0xB9#8, .f3 .ldaAbsy),
    (0xA1#8, .f2 .ldaIndx),
    (0xB1#8, .f2 .ldaIndy),
    (0xA2#8, .f2 .ldxImm),
    (0xA6#8, .f2 .ldxZp),
    (0xB6#8, .f2 .ldxZpy),
    (0xAE#8, .f3 .ldxAbs),
    (0xBE#8, .f3 .ldxAbsy),
    (0xA0#8, .f2 .ldyImm),
    (0xA4#8, .f2 .ldyZp),
    (0xB4#8, .f2 .ldyZpx),
    (0xAC#8, .f3 .ldyAbs),
    (0xBC#8, .f3 .ldyAbsx),
    (0x85#8, .f2 .staZp),
    (0x95#8, .f2 .staZpx),
    (0x8D#8, .f3 .staAbs),
    (0x9D#8, .f3 .staAbsx),
    (0x99#8, .f3 .staAbsy),
    (0x81#8, .f2 .staIndx),
    (0x91#8, .f2 .staIndy),
    (0x86#8, .f2 .stxZp),
    (0x96#8, .f2 .stxZpy),
    (0x8E#8, .f3 .stxAbs),
    (0x84#8, .f2 .styZp),
    (0x94#8, .f2 .styZpx),
    (0x8C#8, .f3 .styAbs)
  ]

/-- The lookup of an opcode byte in OPCODE_TABLE, by the value of the whole byte (41_engine.md R133). -/
def lookupOpcode (op : Byte) : Option Shape := opcodeTable.lookup op

/-- What the decoder answers. `unassigned op`: the byte is no key of OPCODE_TABLE (30_encoding.md R95).
`truncated`: the given bytes end before the instruction does (the engine never meets this: it always has three bytes). -/
inductive Decoded where
  | instr (i : Instr) (rest : List Byte)
  | unassigned (op : Byte)
  | truncated
deriving DecidableEq, Repr

/-- The operand bytes of a shape, read from the bytes after the opcode (30_encoding.md R90, R92). -/
def decodeOperands : Shape → List Byte → Decoded
  | .f2 make, b :: rest => .instr (make b) rest
  | .f2 _, [] => .truncated
  | .f3 make, l :: h :: rest => .instr (make (assembleWord l h)) rest
  | .f3 _, [_] => .truncated
  | .f3 _, [] => .truncated

/-- Decoding: the opcode byte alone selects the instruction and its mode (30_encoding.md R90, R96). -/
def decode : List Byte → Decoded
  | [] => .truncated
  | op :: rest =>
    match lookupOpcode op with
    | none => .unassigned op
    | some shape => decodeOperands shape rest

/-- The opcode byte of each instruction (30_encoding.md R93). -/
def Instr.opcode : Instr → Byte
  | .ldaImm _ => 0xA9#8
  | .ldaZp _ => 0xA5#8
  | .ldaZpx _ => 0xB5#8
  | .ldaAbs _ => 0xAD#8
  | .ldaAbsx _ => 0xBD#8
  | .ldaAbsy _ => 0xB9#8
  | .ldaIndx _ => 0xA1#8
  | .ldaIndy _ => 0xB1#8
  | .ldxImm _ => 0xA2#8
  | .ldxZp _ => 0xA6#8
  | .ldxZpy _ => 0xB6#8
  | .ldxAbs _ => 0xAE#8
  | .ldxAbsy _ => 0xBE#8
  | .ldyImm _ => 0xA0#8
  | .ldyZp _ => 0xA4#8
  | .ldyZpx _ => 0xB4#8
  | .ldyAbs _ => 0xAC#8
  | .ldyAbsx _ => 0xBC#8
  | .staZp _ => 0x85#8
  | .staZpx _ => 0x95#8
  | .staAbs _ => 0x8D#8
  | .staAbsx _ => 0x9D#8
  | .staAbsy _ => 0x99#8
  | .staIndx _ => 0x81#8
  | .staIndy _ => 0x91#8
  | .stxZp _ => 0x86#8
  | .stxZpy _ => 0x96#8
  | .stxAbs _ => 0x8E#8
  | .styZp _ => 0x84#8
  | .styZpx _ => 0x94#8
  | .styAbs _ => 0x8C#8

/-- The operand bytes of each instruction, in the order they lie in memory: the low byte of a word first
(30_encoding.md R92). -/
def Instr.operandBytes : Instr → List Byte
  | .ldaImm b => [b]
  | .ldaZp b => [b]
  | .ldaZpx b => [b]
  | .ldaAbs w => [lowByte w, highByte w]
  | .ldaAbsx w => [lowByte w, highByte w]
  | .ldaAbsy w => [lowByte w, highByte w]
  | .ldaIndx b => [b]
  | .ldaIndy b => [b]
  | .ldxImm b => [b]
  | .ldxZp b => [b]
  | .ldxZpy b => [b]
  | .ldxAbs w => [lowByte w, highByte w]
  | .ldxAbsy w => [lowByte w, highByte w]
  | .ldyImm b => [b]
  | .ldyZp b => [b]
  | .ldyZpx b => [b]
  | .ldyAbs w => [lowByte w, highByte w]
  | .ldyAbsx w => [lowByte w, highByte w]
  | .staZp b => [b]
  | .staZpx b => [b]
  | .staAbs w => [lowByte w, highByte w]
  | .staAbsx w => [lowByte w, highByte w]
  | .staAbsy w => [lowByte w, highByte w]
  | .staIndx b => [b]
  | .staIndy b => [b]
  | .stxZp b => [b]
  | .stxZpy b => [b]
  | .stxAbs w => [lowByte w, highByte w]
  | .styZp b => [b]
  | .styZpx b => [b]
  | .styAbs w => [lowByte w, highByte w]

/-- The bytes of an instruction, the first at the lowest address (30_encoding.md R90). -/
def encode (i : Instr) : List Byte := i.opcode :: i.operandBytes

/-- The three bytes at bits 7:0, 15:8 and 23:16 of a number whose bits from `nbits` up are taken as 0: the longest
instruction (30_encoding.md R90) as spec/opcode_table.json numbers its bits. -/
def tableBytes (nbits w : Nat) : List Byte :=
  let v := w % 2 ^ nbits
  [BitVec.ofNat 8 v, BitVec.ofNat 8 (v / 256), BitVec.ofNat 8 (v / 65536)]

/-- What the decoder reads from an instruction whose bits are `w` (see `tableBytes`). -/
def decodeTableWord (nbits w : Nat) : Option Instr :=
  match decode (tableBytes nbits w) with
  | .instr i _ => some i
  | .unassigned _ => none
  | .truncated => none

end Sys2Proof
end

