-- ==== Sys2Proof/Machine/State.lean ====
section
/-! DEFINITION. The state of the block (10_state.md R20), the reasons a step can stop, the state after reset (R44) and
at power-on (R43). Plain data throughout. -/

namespace Sys2Proof.Machine

/-- The seven one-bit flags (10_state.md R26 to R32). Bit 5 of the status byte is not state (R34). -/
structure Flags where
  /-- `C`, carry, storage only (10_state.md R26). -/
  c : Bool
  /-- `Z`, zero (10_state.md R27). -/
  z : Bool
  /-- `I`, interrupt-disable, storage only (10_state.md R28). -/
  i : Bool
  /-- `D`, decimal, storage only (10_state.md R29). -/
  d : Bool
  /-- `B`, break, storage only (10_state.md R30). -/
  b : Bool
  /-- `V`, overflow, storage only (10_state.md R31). -/
  v : Bool
  /-- `N`, negative (10_state.md R32). -/
  n : Bool
deriving DecidableEq, Repr

/-- The kinds of access of the access sequence (20_memory.md R73). -/
inductive AccessKind where
  | fetch
  | pointerRead
  | dataRead
  | dataWrite
deriving DecidableEq, Repr

/-- One entry of the access sequence: kind, address, byte (20_memory.md R73). -/
structure Access where
  kind : AccessKind
  addr : Nat
  byte : Byte
deriving DecidableEq, Repr

/-- The unhandled-opcode diagnostic: the address of the byte and the byte (60_exceptions.md R203, R205). -/
structure Diagnostic where
  addr : Word
  op : Byte
deriving DecidableEq, Repr

/-- What exists only while a run is in progress: the cycle budget (10_state.md R40), the diagnostics emitted so far
(10_state.md R41) and the model's own record of the access sequence (20_memory.md R73, assumption 5). -/
structure Run where
  budget : Int
  diagnostics : List Diagnostic
  accesses : List Access
deriving DecidableEq, Repr

/-- The two states of the engine (10_state.md R39). -/
inductive RunState where
  | idle
  | running
deriving DecidableEq, Repr

/-- The AddressSpace as its listed (address, byte) pairs: addresses strictly rising, all below 65536, no byte 0x00. An
unlisted address reads 0x00, the contents the spec gives after reset (10_state.md R44). -/
abbrev Memory := List Host.Cell

/-- The complete state (10_state.md R20, R42). `run` is none while the engine is idle and holds the run in progress
while it is running (10_state.md R39, R40; assumption 3). -/
structure State where
  a : Byte
  x : Byte
  y : Byte
  pc : Word
  sp : Word
  flags : Flags
  mem : Memory
  run : Option Run
deriving DecidableEq, Repr

/-- Why a step stops the run abnormally (00_scope.md R11 "Fault"). Each carries the exact state at the stop, from which
the host goes on (60_exceptions.md R208, R209), so no effect the spec gives the stopping iteration is lost. -/
inductive Fault where
  /-- An engine access at `addr`, which is 65536 or more (41_engine.md R142, 60_exceptions.md R202). Raised by the data
  access of LDA, LDY, STA in ABSX, of LDA, LDX, STA in ABSY and of LDA, STA in INDY. `stopped` has the pc past the
  instruction and the earlier accesses charged; nothing else changed. SAFE: the spec itself ends the run here (U11). -/
  | outOfRange (addr : Nat) (stopped : State)
  /-- Strict mode only: the byte `op` fetched at `addr` is an unassigned opcode (60_exceptions.md R204). Raised by the
  engine, by no instruction. `stopped` is the state after the iteration. SAFE: the spec itself ends the run here. -/
  | unhandledStop (addr : Word) (op : Byte) (stopped : State)
deriving DecidableEq, Repr

/-- Why a step has no meaning. -/
inductive Refusal where
  /-- An instruction that has no meaning yet: raised by no arm, since every instruction has its meaning. SAFE. -/
  | notModelled (mnemonic : String)
deriving DecidableEq, Repr

/-- All seven flags clear (10_state.md R44). -/
def Flags.clear : Flags :=
  { c := false, z := false, i := false, d := false, b := false, v := false, n := false }

/-- The state right after the reset operation (10_state.md R44, 70_reset_and_hazards.md R230). -/
def State.reset : State :=
  { a := 0, x := 0, y := 0, pc := Config.resetPc, sp := Config.resetSp, flags := Flags.clear, mem := [], run := none }

/-- The power-on state, before any reset (10_state.md R43, 70_reset_and_hazards.md R231). -/
def State.powerOn : State :=
  { a := 0, x := 0, y := 0, pc := 0, sp := 0, flags := Flags.clear, mem := [], run := none }

end Sys2Proof.Machine
end

