-- ==== Sys2Proof/Machine/Ops.lean ====
section
/-! DEFINITION. The named operations over memory, registers and the run: the AddressSpace (20_memory.md R60 to R64),
the register file (10_state.md R21 to R25), charging (41_engine.md R135), the charged access primitives (20_memory.md
R75 to R79), the raise of OutOfRange (41_engine.md R142), the diagnostic (60_exceptions.md R203) and the start of a run
(41_engine.md R131). -/

namespace Sys2Proof.Machine

/-- `mem[a]`: the listed byte, and 0x00 at an unlisted address (10_state.md R44, 20_memory.md R70). -/
def Memory.readByte : Memory → Nat → Byte
  | [], _ => 0
  | (k, v) :: rest, a => if k = a then v else Memory.readByte rest a

/-- The pair placed in a memory that does not list its address, before the first higher address. -/
def Memory.place (a : Nat) (v : Byte) : Memory → Memory
  | [] => [(a, v)]
  | (k, w) :: rest => if a < k then (a, v) :: (k, w) :: rest else (k, w) :: Memory.place a v rest

/-- `mem[a] <- v`, in canonical form: the old pair goes, and 0x00, what an unlisted address reads as, is not listed
(20_memory.md R62). -/
def Memory.writeByte (m : Memory) (a : Nat) (v : Byte) : Memory :=
  let others := m.filter fun cell => cell.1 != a
  if v = 0 then others else Memory.place a v others

/-- The canonical form: addresses strictly rising and below the capacity, no listed byte 0x00. -/
def Memory.wf : Memory → Bool
  | [] => true
  | (a, v) :: rest =>
    decide (a < Config.capacity) && decide (v ≠ 0) && rest.all (fun cell => decide (a < cell.1)) && Memory.wf rest

/-- The byte at a 16-bit address, which is always below the capacity (20_memory.md R60). -/
def State.byteAt (s : State) (a : Word) : Byte := s.mem.readByte a.toNat

/-- `MemRead(a, 1)`, the AddressSpace read: none is the failure OutOfRange(a) (20_memory.md R61, R64). -/
def State.memRead (s : State) (a : Nat) : Option Byte :=
  if a < Config.capacity then some (s.mem.readByte a) else none

/-- `MemWrite(a, 1, v)`, the AddressSpace write: none is the failure OutOfRange(a), with memory unchanged
(20_memory.md R62, R64). -/
def State.memWrite (s : State) (a : Nat) (v : Byte) : Option State :=
  if a < Config.capacity then some { s with mem := s.mem.writeByte a v } else none

/-- `MemRead(a, 2)`, for any address (00_scope.md R9, 20_memory.md R65): the byte at `a`, which is bits 7:0 and is read
first, then the byte at `a + 1`, which is not wrapped; the error is the address of the byte read that raised. It charges
nothing: the engine's own two-byte read of a pointer is `State.readPtr16`, two charged byte reads. -/
def State.memRead16 (s : State) (a : Nat) : Except Nat Word :=
  match s.memRead a with
  | none => .error a
  | some lo =>
    match s.memRead (a + 1) with
    | none => .error (a + 1)
    | some hi => .ok (assembleWord lo hi)

/-- `reinitialize()`: every byte of memory becomes 0 and nothing else changes (20_memory.md R63). -/
def State.reinitialize (s : State) : State := { s with mem := [] }

/-- `x[r]` (00_scope.md R8, 10_state.md R36). -/
def State.getReg (s : State) : Reg → Byte
  | .a => s.a
  | .x => s.x
  | .y => s.y

/-- `x[r] <- v`, the plain register write: no flag changes (10_state.md R37). -/
def State.setReg (s : State) : Reg → Byte → State
  | .a, v => { s with a := v }
  | .x, v => { s with x := v }
  | .y, v => { s with y := v }

/-- `run_state` (10_state.md R39): running exactly while a run is in progress. -/
def State.runState (s : State) : RunState :=
  match s.run with
  | none => .idle
  | some _ => .running

/-- One completed access of the engine: its cycle is deducted and it joins the access sequence (41_engine.md R135,
20_memory.md R73). -/
def Run.charge (r : Run) (access : Access) : Run :=
  { r with budget := r.budget - Config.accessCost, accesses := r.accesses ++ [access] }

/-- The charge of one access to the run in progress (41_engine.md R135). -/
def State.charge (s : State) (access : Access) : State := { s with run := s.run.map fun r => r.charge access }

/-- `Fetch8()` (20_memory.md R75): the byte at `pc`, which cannot be out of range, then `pc` plus 1 modulo 65536, then
the charge. -/
def State.fetch8 (s : State) : Byte × State :=
  let v := s.byteAt s.pc
  (v, { s with pc := s.pc + 1 }.charge ⟨.fetch, s.pc.toNat, v⟩)

/-- `Fetch16()` (20_memory.md R76): two fetches, the low byte first. -/
def State.fetch16 (s : State) : Word × State :=
  let (lo, s1) := s.fetch8
  let (hi, s2) := s1.fetch8
  (assembleWord lo hi, s2)

/-- `Read8(a)` of a data byte (20_memory.md R77): none when the read raised OutOfRange(a), and then nothing is
charged. -/
def State.read8 (s : State) (a : Nat) : Option (Byte × State) :=
  match s.memRead a with
  | some v => some (v, s.charge ⟨.dataRead, a, v⟩)
  | none => none

/-- `Read8` of a pointer byte at a 16-bit address, which cannot raise (20_memory.md R77, R78). -/
def State.readPointer8 (s : State) (a : Word) : Byte × State :=
  let v := s.byteAt a
  (v, s.charge ⟨.pointerRead, a.toNat, v⟩)

/-- `ReadPtr16(p)` (20_memory.md R78): the low byte at `p`, then the high byte at `p + 1`, which is 0x0100 when
`p = 0xFF`: never wrapped to the zero page (D15). -/
def State.readPtr16 (s : State) (p : Byte) : Word × State :=
  let (lo, s1) := s.readPointer8 (p.setWidth 16)
  let (hi, s2) := s1.readPointer8 (p.setWidth 16 + 1)
  (assembleWord lo hi, s2)

/-- `Write8(a, v)` (20_memory.md R79): none when the write raised OutOfRange(a), and then memory is unchanged and
nothing is charged. -/
def State.write8 (s : State) (a : Nat) (v : Byte) : Option State :=
  match s.memWrite a v with
  | some t => some (t.charge ⟨.dataWrite, a, v⟩)
  | none => none

/-- `raise OutOfRange(ea)` inside a run (41_engine.md R142, 60_exceptions.md R208): the run stops in the state reached
so far. There is no handler, no saved register and nothing to restore: what comes after is the host's (R209). -/
def raiseOutOfRange (ea : Nat) (s : State) : Host.Outcome State Fault Refusal := .fault (.outOfRange ea s)

/-- `emit UnhandledOpcode(a, op)`: appended to the run's diagnostics (41_engine.md R134, 60_exceptions.md R203). -/
def State.emit (s : State) (d : Diagnostic) : State :=
  { s with run := s.run.map fun r => { r with diagnostics := r.diagnostics ++ [d] } }

/-- The start of a run with budget `b0` (41_engine.md R131): running, the budget set, no diagnostics yet. Nothing else
is initialised (D26). -/
def State.startRun (s : State) (b0 : Int) : State :=
  { s with run := some { budget := b0, diagnostics := [], accesses := [] } }

/-- The end of a run: the engine is idle again and the budget is gone (41_engine.md R131, 10_state.md R40). -/
def State.endRun (s : State) : State := { s with run := none }

/-- The three bytes at `pc`, `pc + 1` and `pc + 2` modulo 65536: what the next iteration decodes. Looking at them is no
access (20_memory.md R61: a read has no side effect); the accesses are the fetches the meaning performs. -/
def State.codeBytes (s : State) : List Byte := [s.byteAt s.pc, s.byteAt (s.pc + 1), s.byteAt (s.pc + 2)]

/-- Bytes placed from an address on, modulo 65536, as a host's writes place them (30_encoding.md R100). -/
def State.placeBytes (s : State) : Word → List Byte → State
  | _, [] => s
  | a, v :: rest => State.placeBytes { s with mem := s.mem.writeByte a.toNat v } (a + 1) rest

/-- A run in progress with fuel for at least one more iteration: the run as it is if its budget is positive, with
budget 1 if it is not, and a new run of budget 1 on an idle engine (as `execute(1)` starts one, 41_engine.md R140). -/
def State.readyToStep (s : State) : State :=
  match s.run with
  | some r => if 0 < r.budget then s else { s with run := some { r with budget := 1 } }
  | none => s.startRun 1

end Sys2Proof.Machine
end

