-- ==== Sys2Proof/Machine/Flags.lean ====
section
/-! DEFINITION. Every flag computation of the block: the derivation of Z and N (10_state.md R27, R32), the status byte
packed and unpacked (R33, R34), and the single flag read (R36). No other flag is ever computed (40_addressing_modes.md
R123). -/

namespace Sys2Proof.Machine

/-- Z is set iff the value is 0 and N is its bit 7; no other flag changes (10_state.md R27, R32). -/
def Flags.deriveZN (f : Flags) (v : Byte) : Flags := { f with z := decide (v = 0), n := v.getLsbD 7 }

/-- Z and N derived from a value (42_load.md R150, 10_state.md R38). -/
def State.deriveZN (s : State) (v : Byte) : State := { s with flags := s.flags.deriveZN v }

/-- The status byte `N ++ V ++ 1 ++ B ++ D ++ I ++ Z ++ C` (10_state.md R33): bit 5 always reads 1. -/
def Flags.pack (f : Flags) : Byte :=
  BitVec.ofBool f.n ++ BitVec.ofBool f.v ++ 1#1 ++ BitVec.ofBool f.b ++ BitVec.ofBool f.d ++ BitVec.ofBool f.i ++
    BitVec.ofBool f.z ++ BitVec.ofBool f.c

/-- The flags of a status byte (10_state.md R34): bit 5 is discarded. -/
def Flags.unpack (b : Byte) : Flags :=
  { c := b.getLsbD 0, z := b.getLsbD 1, i := b.getLsbD 2, d := b.getLsbD 3, b := b.getLsbD 4, v := b.getLsbD 6,
    n := b.getLsbD 7 }

/-- `get_status()` (10_state.md R33). -/
def State.getStatus (s : State) : Byte := s.flags.pack

/-- `set_status(b)` (10_state.md R34). -/
def State.setStatus (s : State) (b : Byte) : State := { s with flags := Flags.unpack b }

end Sys2Proof.Machine
end

