-- ==== Sys2Proof/Machine/Operands.lean ====
section
/-! DEFINITION. The addressing-mode resolver (40_addressing_modes.md R110 to R120). Each resolver is called after the
opcode fetch, performs the fetches of the operand bytes and the pointer reads of its mode, in order, each charged, and
gives the value (IMM) or the effective address as an integer that may be 65536 or more. It writes only `pc` and the run
(R110). The operand itself is the instruction's field, the byte or word the decoder read at the same addresses. -/

namespace Sys2Proof.Machine

/-- The zero-page sum `(b + index) mod 256` (40_addressing_modes.md R113, R114, R118, R123): the carry is dropped. -/
def zeroPageSum (b index : Byte) : Byte := b + index

/-- The 17-bit sum of a word and an index, not reduced (40_addressing_modes.md R116, R117, R119, R123; D4). -/
def indexSum (w : Word) (index : Byte) : Nat := w.toNat + index.toNat

/-- The word at a zero-page pointer: the low byte at `p`, the high byte at `p + 1` unwrapped (20_memory.md R78). -/
def State.pointerWord (s : State) (p : Byte) : Word :=
  assembleWord (s.byteAt (p.setWidth 16)) (s.byteAt (p.setWidth 16 + 1))

/-- `Resolve_IMM()` (40_addressing_modes.md R111). -/
def resolveImm (b : Byte) (s : State) : Byte × State := (b, s.fetch8.2)

/-- `Resolve_ZP()` (40_addressing_modes.md R112). -/
def resolveZp (b : Byte) (s : State) : Nat × State := (b.toNat, s.fetch8.2)

/-- `Resolve_ZPX()` (40_addressing_modes.md R113). -/
def resolveZpx (b : Byte) (s : State) : Nat × State := ((zeroPageSum b s.x).toNat, s.fetch8.2)

/-- `Resolve_ZPY()` (40_addressing_modes.md R114). -/
def resolveZpy (b : Byte) (s : State) : Nat × State := ((zeroPageSum b s.y).toNat, s.fetch8.2)

/-- `Resolve_ABS()` (40_addressing_modes.md R115). -/
def resolveAbs (w : Word) (s : State) : Nat × State := (w.toNat, s.fetch16.2)

/-- `Resolve_ABSX()` (40_addressing_modes.md R116). -/
def resolveAbsx (w : Word) (s : State) : Nat × State := (indexSum w s.x, s.fetch16.2)

/-- `Resolve_ABSY()` (40_addressing_modes.md R117). -/
def resolveAbsy (w : Word) (s : State) : Nat × State := (indexSum w s.y, s.fetch16.2)

/-- `Resolve_INDX()` (40_addressing_modes.md R118). -/
def resolveIndx (b : Byte) (s : State) : Nat × State :=
  let (ea, t) := s.fetch8.2.readPtr16 (zeroPageSum b s.x)
  (ea.toNat, t)

/-- `Resolve_INDY()` (40_addressing_modes.md R119). -/
def resolveIndy (b : Byte) (s : State) : Nat × State :=
  let (w, t) := s.fetch8.2.readPtr16 b
  (indexSum w s.y, t)

/-- The effective address of an instruction as a function of the state its iteration starts in: what its resolver
gives, none for mode IMM (40_addressing_modes.md R110 to R119). Statements name the stored byte by it. -/
def effectiveAddress (s : State) : Instr → Option Nat
  | .ldaImm _ | .ldxImm _ | .ldyImm _ => none
  | .ldaZp b | .ldxZp b | .ldyZp b | .staZp b | .stxZp b | .styZp b => some (resolveZp b s).1
  | .ldaZpx b | .ldyZpx b | .staZpx b | .styZpx b => some (resolveZpx b s).1
  | .ldxZpy b | .stxZpy b => some (resolveZpy b s).1
  | .ldaAbs w | .ldxAbs w | .ldyAbs w | .staAbs w | .stxAbs w | .styAbs w => some (resolveAbs w s).1
  | .ldaAbsx w | .ldyAbsx w | .staAbsx w => some (resolveAbsx w s).1
  | .ldaAbsy w | .ldxAbsy w | .staAbsy w => some (resolveAbsy w s).1
  | .ldaIndx b | .staIndx b => some (resolveIndx b s).1
  | .ldaIndy b | .staIndy b => some (resolveIndy b s).1

end Sys2Proof.Machine
end

