-- ==== Sys2Proof/Machine/Load.lean ====
section
/-! DEFINITION. The load instructions LDA, LDX and LDY (42_load.md R150 to R168). Each meaning is the whole iteration of
41_engine.md R132 for its opcode: the opcode fetch, the resolver of its mode, the load action. -/

namespace Sys2Proof.Machine

/-- The load action on an operand that is a value, mode IMM (42_load.md R150): the destination register takes it, then
Z and N are derived from it and no other flag is touched. -/
def performLoadValue (r : Reg) (operand : Byte × State) : Host.Outcome State Fault Refusal :=
  .next ((operand.2.setReg r operand.1).deriveZN operand.1)

/-- The load action on an operand that is an address (42_load.md R150): the byte at the effective address is loaded as
above. If the read raises, none of the three writes happens (41_engine.md R142). -/
def performLoad (r : Reg) (operand : Nat × State) : Host.Outcome State Fault Refusal :=
  match operand.2.read8 operand.1 with
  | some loaded => performLoadValue r loaded
  | none => raiseOutOfRange operand.1 operand.2

/-- `LDA #$bb`, opcode 0xA9 (R151). -/
def execLdaImm (b : Byte) (s : State) : Host.Outcome State Fault Refusal :=
  performLoadValue .a (resolveImm b s.fetch8.2)

/-- `LDA $bb`, opcode 0xA5 (R152). -/
def execLdaZp (b : Byte) (s : State) : Host.Outcome State Fault Refusal :=
  performLoad .a (resolveZp b s.fetch8.2)

/-- `LDA $bb,X`, opcode 0xB5 (R153). -/
def execLdaZpx (b : Byte) (s : State) : Host.Outcome State Fault Refusal :=
  performLoad .a (resolveZpx b s.fetch8.2)

/-- `LDA $hhll`, opcode 0xAD (R154). -/
def execLdaAbs (w : Word) (s : State) : Host.Outcome State Fault Refusal :=
  performLoad .a (resolveAbs w s.fetch8.2)

/-- `LDA $hhll,X`, opcode 0xBD (R155). -/
def execLdaAbsx (w : Word) (s : State) : Host.Outcome State Fault Refusal :=
  performLoad .a (resolveAbsx w s.fetch8.2)

/-- `LDA $hhll,Y`, opcode 0xB9 (R156). -/
def execLdaAbsy (w : Word) (s : State) : Host.Outcome State Fault Refusal :=
  performLoad .a (resolveAbsy w s.fetch8.2)

/-- `LDA ($bb,X)`, opcode 0xA1 (R157). -/
def execLdaIndx (b : Byte) (s : State) : Host.Outcome State Fault Refusal :=
  performLoad .a (resolveIndx b s.fetch8.2)

/-- `LDA ($bb),Y`, opcode 0xB1 (R158). -/
def execLdaIndy (b : Byte) (s : State) : Host.Outcome State Fault Refusal :=
  performLoad .a (resolveIndy b s.fetch8.2)

/-- `LDX #$bb`, opcode 0xA2 (R159). -/
def execLdxImm (b : Byte) (s : State) : Host.Outcome State Fault Refusal :=
  performLoadValue .x (resolveImm b s.fetch8.2)

/-- `LDX $bb`, opcode 0xA6 (R160). -/
def execLdxZp (b : Byte) (s : State) : Host.Outcome State Fault Refusal :=
  performLoad .x (resolveZp b s.fetch8.2)

/-- `LDX $bb,Y`, opcode 0xB6 (R161). -/
def execLdxZpy (b : Byte) (s : State) : Host.Outcome State Fault Refusal :=
  performLoad .x (resolveZpy b s.fetch8.2)

/-- `LDX $hhll`, opcode 0xAE (R162). -/
def execLdxAbs (w : Word) (s : State) : Host.Outcome State Fault Refusal :=
  performLoad .x (resolveAbs w s.fetch8.2)

/-- `LDX $hhll,Y`, opcode 0xBE (R163). -/
def execLdxAbsy (w : Word) (s : State) : Host.Outcome State Fault Refusal :=
  performLoad .x (resolveAbsy w s.fetch8.2)

/-- `LDY #$bb`, opcode 0xA0 (R164). -/
def execLdyImm (b : Byte) (s : State) : Host.Outcome State Fault Refusal :=
  performLoadValue .y (resolveImm b s.fetch8.2)

/-- `LDY $bb`, opcode 0xA4 (R165). -/
def execLdyZp (b : Byte) (s : State) : Host.Outcome State Fault Refusal :=
  performLoad .y (resolveZp b s.fetch8.2)

/-- `LDY $bb,X`, opcode 0xB4 (R166). -/
def execLdyZpx (b : Byte) (s : State) : Host.Outcome State Fault Refusal :=
  performLoad .y (resolveZpx b s.fetch8.2)

/-- `LDY $hhll`, opcode 0xAC (R167). -/
def execLdyAbs (w : Word) (s : State) : Host.Outcome State Fault Refusal :=
  performLoad .y (resolveAbs w s.fetch8.2)

/-- `LDY $hhll,X`, opcode 0xBC (R168). -/
def execLdyAbsx (w : Word) (s : State) : Host.Outcome State Fault Refusal :=
  performLoad .y (resolveAbsx w s.fetch8.2)

end Sys2Proof.Machine
end

