-- ==== Sys2Proof/Machine/Store.lean ====
section
/-! DEFINITION. The store instructions STA, STX and STY (43_store.md R170 to R183). Each meaning is the whole iteration
of 41_engine.md R132 for its opcode: the opcode fetch, the resolver of its mode, the store action. -/

namespace Sys2Proof.Machine

/-- The store action (43_store.md R170): the source register's value is written at the effective address and no flag is
affected. If the write raises, memory is unchanged (41_engine.md R142). The operand is always an address: no store has
mode IMM. -/
def performStore (r : Reg) (operand : Nat × State) : Host.Outcome State Fault Refusal :=
  match operand.2.write8 operand.1 (operand.2.getReg r) with
  | some t => .next t
  | none => raiseOutOfRange operand.1 operand.2

/-- `STA $bb`, opcode 0x85 (R171). -/
def execStaZp (b : Byte) (s : State) : Host.Outcome State Fault Refusal :=
  performStore .a (resolveZp b s.fetch8.2)

/-- `STA $bb,X`, opcode 0x95 (R172). -/
def execStaZpx (b : Byte) (s : State) : Host.Outcome State Fault Refusal :=
  performStore .a (resolveZpx b s.fetch8.2)

/-- `STA $hhll`, opcode 0x8D (R173). -/
def execStaAbs (w : Word) (s : State) : Host.Outcome State Fault Refusal :=
  performStore .a (resolveAbs w s.fetch8.2)

/-- `STA $hhll,X`, opcode 0x9D (R174). -/
def execStaAbsx (w : Word) (s : State) : Host.Outcome State Fault Refusal :=
  performStore .a (resolveAbsx w s.fetch8.2)

/-- `STA $hhll,Y`, opcode 0x99 (R175). -/
def execStaAbsy (w : Word) (s : State) : Host.Outcome State Fault Refusal :=
  performStore .a (resolveAbsy w s.fetch8.2)

/-- `STA ($bb,X)`, opcode 0x81 (R176). -/
def execStaIndx (b : Byte) (s : State) : Host.Outcome State Fault Refusal :=
  performStore .a (resolveIndx b s.fetch8.2)

/-- `STA ($bb),Y`, opcode 0x91 (R177). -/
def execStaIndy (b : Byte) (s : State) : Host.Outcome State Fault Refusal :=
  performStore .a (resolveIndy b s.fetch8.2)

/-- `STX $bb`, opcode 0x86 (R178). -/
def execStxZp (b : Byte) (s : State) : Host.Outcome State Fault Refusal :=
  performStore .x (resolveZp b s.fetch8.2)

/-- `STX $bb,Y`, opcode 0x96 (R179). -/
def execStxZpy (b : Byte) (s : State) : Host.Outcome State Fault Refusal :=
  performStore .x (resolveZpy b s.fetch8.2)

/-- `STX $hhll`, opcode 0x8E (R180). -/
def execStxAbs (w : Word) (s : State) : Host.Outcome State Fault Refusal :=
  performStore .x (resolveAbs w s.fetch8.2)

/-- `STY $bb`, opcode 0x84 (R181). -/
def execStyZp (b : Byte) (s : State) : Host.Outcome State Fault Refusal :=
  performStore .y (resolveZp b s.fetch8.2)

/-- `STY $bb,X`, opcode 0x94 (R182). -/
def execStyZpx (b : Byte) (s : State) : Host.Outcome State Fault Refusal :=
  performStore .y (resolveZpx b s.fetch8.2)

/-- `STY $hhll`, opcode 0x8C (R183). -/
def execStyAbs (w : Word) (s : State) : Host.Outcome State Fault Refusal :=
  performStore .y (resolveAbs w s.fetch8.2)

end Sys2Proof.Machine
end

