-- ==== Sys2Proof/Machine/Engine.lean ====
section
/-! DEFINITION. The execution engine (41_engine.md R131 to R134): the unhandled-opcode path, one iteration, and the step
of the loop, each for both settings of STRICT_UNHANDLED (00_scope.md R6). -/

namespace Sys2Proof.Machine

/-- The unhandled-opcode iteration (41_engine.md R134, 60_exceptions.md R203, R204): the opcode fetch, the diagnostic,
and in strict mode the end of the run. -/
def unhandled (strict : Bool) (s : State) : Host.Outcome State Fault Refusal :=
  let (op, t) := s.fetch8
  let after := t.emit ⟨s.pc, op⟩
  if strict then .fault (.unhandledStop s.pc op after) else .next after

/-- `Step()`, one iteration (41_engine.md R132): the instruction whose bytes stand at `pc`, or the unhandled path when
the byte at `pc` is no key of the table. The decoder has all three bytes, so it never finds them truncated. -/
def iterate (strict : Bool) (s : State) : Host.Outcome State Fault Refusal :=
  match decode s.codeBytes with
  | .instr i _ => exec i s
  | .unassigned _ => unhandled strict s
  | .truncated => unhandled strict s

/-- The step of the machine. Idle: the engine keeps all its state (60_exceptions.md R215, 00_scope.md R5). Running with
a positive budget: one iteration. Running otherwise: the loop condition of 41_engine.md R131 fails and the run ends. -/
def stepWith (strict : Bool) (s : State) : Host.Outcome State Fault Refusal :=
  match s.run with
  | none => .next s
  | some r => if 0 < r.budget then iterate strict s else .next s.endRun

end Sys2Proof.Machine
end

