-- ==== Sys2Proof/Machine/Step.lean ====
section
/-! DEFINITION. The step at the default of STRICT_UNHANDLED (00_scope.md R6), and the placing of an instruction where the
step fetches next. -/

namespace Sys2Proof.Machine

/-- One step of the machine, STRICT_UNHANDLED at its default false (00_scope.md R6; assumption 2). -/
def step (s : State) : Host.Outcome State Fault Refusal := stepWith Config.strictUnhandled s

/-- `s` with the instruction whose bits are `w` at `pc` and a run in progress that has fuel for it, so that the next
step runs it: what a host does with `write` and `execute` (70_reset_and_hazards.md R233; assumption 4). -/
def State.withFetchWord (s : State) (nbits w : Nat) : State :=
  (s.placeBytes s.pc (tableBytes nbits w)).readyToStep

end Sys2Proof.Machine
end

