-- ==== Sys2Proof/Machine/HostOps.lean ====
section
/-! DEFINITION. The host interface (70_reset_and_hazards.md R234): every operation, possible only while the engine is
idle, with its reply and the state it leaves; `execute` is the whole run of 41_engine.md R131. -/

namespace Sys2Proof.Machine

/-- The names of the seven flags (10_state.md R36). -/
inductive FlagName where
  | c
  | z
  | i
  | d
  | b
  | v
  | n
deriving DecidableEq, Repr

/-- The stop status of a run (10_state.md R41, 41_engine.md R139). -/
inductive Status where
  | exhausted
  | outOfRange (addr : Nat)
  | unhandledStop (addr : Word) (op : Byte)
deriving DecidableEq, Repr

/-- What `execute` hands back (41_engine.md R131, R139) with the model's record of the access sequence, and the state
the run left. -/
structure RunResult where
  status : Status
  budget : Int
  diagnostics : List Diagnostic
  accesses : List Access
  state : State
deriving DecidableEq, Repr

/-- The host's operations (70_reset_and_hazards.md R234). -/
inductive HostCmd where
  | read (a : Nat)
  | write (a : Nat) (v : Byte)
  | reinitialize
  | getReg (r : Reg)
  | getPc
  | getSp
  | getFlag (f : FlagName)
  | setReg (r : Reg) (v : Byte)
  | setDeriving (r : Reg) (v : Byte)
  | setPc (w : Word)
  | setSp (w : Word)
  | getStatus
  | setStatus (b : Byte)
  | reset
  | execute (b0 : Int)
deriving DecidableEq, Repr

/-- The results of the host's operations (70_reset_and_hazards.md R234). -/
inductive HostReply where
  | done
  | byte (v : Byte)
  | word (w : Word)
  | bit (b : Bool)
  | outOfRange (a : Nat)
  | ran (status : Status) (budget : Int) (diagnostics : List Diagnostic) (accesses : List Access)
deriving DecidableEq, Repr

/-- A single flag (10_state.md R36). -/
def State.getFlag (s : State) : FlagName → Bool
  | .c => s.flags.c
  | .z => s.flags.z
  | .i => s.flags.i
  | .d => s.flags.d
  | .b => s.flags.b
  | .v => s.flags.v
  | .n => s.flags.n

/-- `set_deriving(r, v)`: the register, Z and N, and no other flag (10_state.md R38). -/
def State.setDeriving (s : State) (r : Reg) (v : Byte) : State := (s.setReg r v).deriveZN v

/-- `reset()` (70_reset_and_hazards.md R230). -/
def State.resetOp (s : State) : State :=
  { s.reinitialize with a := 0, x := 0, y := 0, pc := Config.resetPc, sp := Config.resetSp, flags := Flags.clear }

/-- The outputs of the run in progress (10_state.md R41). An idle engine has none; the execute loop reads it only while
a run is in progress. -/
def State.currentRun (s : State) : Run := s.run.getD { budget := 0, diagnostics := [], accesses := [] }

/-- The end of `execute` (41_engine.md R131): the run's outputs are handed back and the engine is idle. -/
def finishRun (status : Status) (s : State) : RunResult :=
  { status := status, budget := s.currentRun.budget, diagnostics := s.currentRun.diagnostics,
    accesses := s.currentRun.accesses, state := s.endRun }

/-- The execute loop (41_engine.md R131) with fuel for that many iterations. No iteration refuses, so the last arm is
never taken. -/
def runLoop (strict : Bool) : Nat → State → RunResult
  | 0, s => finishRun .exhausted s
  | fuel + 1, s =>
    if 0 < s.currentRun.budget then
      match iterate strict s with
      | .next t => runLoop strict fuel t
      | .fault (.outOfRange ea t) => finishRun (.outOfRange ea) t
      | .fault (.unhandledStop a op t) => finishRun (.unhandledStop a op) t
      | .refused _ => finishRun .exhausted s
    else finishRun .exhausted s

/-- `execute(b0)` (41_engine.md R131). Every iteration costs at least 1 cycle, so fuel for `b0` iterations is enough
(41_engine.md R137). -/
def State.execute (strict : Bool) (s : State) (b0 : Int) : RunResult := runLoop strict b0.toNat (s.startRun b0)

/-- What an operation does on an idle engine (70_reset_and_hazards.md R234). -/
def hostIdle (strict : Bool) (s : State) : HostCmd → HostReply × State
  | .read a =>
    match s.memRead a with
    | some v => (.byte v, s)
    | none => (.outOfRange a, s)
  | .write a v =>
    match s.memWrite a v with
    | some t => (.byte v, t)
    | none => (.outOfRange a, s)
  | .reinitialize => (.done, s.reinitialize)
  | .getReg r => (.byte (s.getReg r), s)
  | .getPc => (.word s.pc, s)
  | .getSp => (.word s.sp, s)
  | .getFlag f => (.bit (s.getFlag f), s)
  | .setReg r v => (.done, s.setReg r v)
  | .setDeriving r v => (.done, s.setDeriving r v)
  | .setPc w => (.done, { s with pc := w })
  | .setSp w => (.done, { s with sp := w })
  | .getStatus => (.byte s.getStatus, s)
  | .setStatus b => (.done, s.setStatus b)
  | .reset => (.done, s.resetOp)
  | .execute b0 =>
    let result := s.execute strict b0
    (.ran result.status result.budget result.diagnostics result.accesses, result.state)

/-- A host operation: none while a run is in progress, since then no such transition exists (00_scope.md R5,
70_reset_and_hazards.md R234, U17). -/
def hostOp (strict : Bool) (c : HostCmd) (s : State) : Option (HostReply × State) :=
  match s.runState with
  | .idle => some (hostIdle strict s c)
  | .running => none

end Sys2Proof.Machine
end

