-- ==== Sys2Proof/Machine/Stack.lean ====
section
/-! DEFINITION. The stack page and the two-byte push (44_stack.md R190 to R193). No opcode reaches the push
(44_stack.md R195): it is a primitive on its own, part of neither the step nor the host interface. -/

namespace Sys2Proof.Machine

/-- `StackAddr() = 0x0100 + sp[7:0]` (44_stack.md R191; D13). -/
def State.stackAddr (s : State) : Word := Config.stackBase + (s.sp.setWidth 8).setWidth 16

/-- Half of a push: a charged write at the stack address, which is below 0x0200 and cannot raise, then the decrement of
the whole register modulo 65536 (44_stack.md R192; D13, D14). -/
def State.pushHalf (s : State) (v : Byte) : State :=
  { s with mem := s.mem.writeByte s.stackAddr.toNat v, sp := s.sp - 1 }.charge ⟨.dataWrite, s.stackAddr.toNat, v⟩

/-- `PushWord(w)` (44_stack.md R192): the high byte, then the low byte. -/
def State.pushWord (s : State) (w : Word) : State := (s.pushHalf (highByte w)).pushHalf (lowByte w)

end Sys2Proof.Machine
end

