-- ==== Sys2Proof/Safety.lean ====
section
/-! DEFINITION. The terms claims are stated in: the accesses and the charge of an iteration, the state a load or a store
leaves, the state in which an out-of-range access stops, the costs and access kinds of 41_engine.md R141, and the
machine's invariants. -/

namespace Sys2Proof.Machine

/-- The fetches of an instruction of `n` bytes at `pc`, in order, addresses modulo 65536 (41_engine.md R141). -/
def fetchesAt (s : State) : Word → Nat → List Access
  | _, 0 => []
  | a, n + 1 => ⟨.fetch, a.toNat, s.byteAt a⟩ :: fetchesAt s (a + 1) n

/-- The two pointer reads at `p` and `p + 1`, in order (41_engine.md R141). -/
def pointerReads (s : State) (p : Word) : List Access :=
  [⟨.pointerRead, p.toNat, s.byteAt p⟩, ⟨.pointerRead, (p + 1).toNat, s.byteAt (p + 1)⟩]

/-- `s` after it has fetched `n` bytes through `pc` and then performed further accesses, one cycle charged for each: `pc`
and the run, and nothing else, are changed (41_engine.md R135, R142). -/
def State.afterAccesses (s : State) (n : Nat) (further : List Access) : State :=
  { s with
    pc := s.pc + BitVec.ofNat 16 n
    run := s.run.map fun r =>
      { r with
        budget := r.budget - (fetchesAt s s.pc n ++ further).length
        accesses := r.accesses ++ (fetchesAt s s.pc n ++ further) } }

/-- What a load of `v` into `r` leaves (42_load.md R150) after the accesses of an instruction of `n` bytes: the register,
Z and N, besides `pc` and the run. -/
def State.afterLoad (s : State) (r : Reg) (v : Byte) (n : Nat) (accesses : List Access) : State :=
  let t := (s.afterAccesses n accesses).setReg r v
  { t with flags := { t.flags with z := decide (v = 0#8), n := v.getLsbD 7 } }

/-- What a load into `r` of the byte at `ea` leaves, when the data read follows the accesses given (42_load.md R150). -/
def State.afterLoadFrom (s : State) (r : Reg) (ea : Nat) (n : Nat) (accesses : List Access) : State :=
  s.afterLoad r (s.mem.readByte ea) n (accesses ++ [⟨.dataRead, ea, s.mem.readByte ea⟩])

/-- What a store of `v` at `ea` leaves, when the data write follows the accesses given (43_store.md R170): the byte at
`ea`, besides `pc` and the run. -/
def State.afterStore (s : State) (ea : Nat) (v : Byte) (n : Nat) (accesses : List Access) : State :=
  let t := s.afterAccesses n (accesses ++ [⟨.dataWrite, ea, v⟩])
  { t with mem := t.mem.writeByte ea v }

/-- The word at an address as a number: the byte at `a` is bits 7:0, the byte at `a + 1`, not wrapped, is bits 15:8
(20_memory.md R65, R78). -/
def State.wordAt (s : State) (a : Nat) : Nat := (s.mem.readByte (a + 1)).toNat * 256 + (s.mem.readByte a).toNat

end Sys2Proof.Machine

namespace Sys2Proof

open Machine

/-- The total cycles of an instruction by its mode (41_engine.md R141, table). -/
def Mode.cycles : Mode → Int
  | .imm => 2
  | .zp | .zpx | .zpy => 3
  | .abs | .absx | .absy => 4
  | .indx | .indy => 5

/-- The kinds of an instruction's accesses before its data access, in order (41_engine.md R141, table). -/
def Mode.kindsBeforeData : Mode → List AccessKind
  | .imm | .zp | .zpx | .zpy => [.fetch, .fetch]
  | .abs | .absx | .absy => [.fetch, .fetch, .fetch]
  | .indx | .indy => [.fetch, .fetch, .pointerRead, .pointerRead]

/-- The kind of an instruction's data access: none in mode IMM (41_engine.md R141, table). -/
def Entry.dataKind (e : Entry) : List AccessKind :=
  match e.mode, e.action with
  | .imm, _ => []
  | _, .load => [.dataRead]
  | _, .store => [.dataWrite]

end Sys2Proof

namespace Sys2Proof.Machine

/-- How many accesses of a kind a run has made (20_memory.md R73). -/
def Run.countOf (r : Run) (kind : AccessKind) : Nat := (r.accesses.filter fun access => access.kind = kind).length

/-- A run in progress has fuel for another iteration (41_engine.md R131, the loop condition). -/
def State.fueled (s : State) : Prop := ∃ r, s.run = some r ∧ 0 < r.budget

/-- The invariant of the machine: memory is in canonical form, every recorded access is inside the address space
(20_memory.md R64, R73) and every diagnostic is of an unassigned opcode (60_exceptions.md R203). -/
def State.inv (s : State) : Prop :=
  s.mem.wf = true ∧
    ∀ r, s.run = some r →
      (∀ access ∈ r.accesses, access.addr < 65536) ∧ ∀ d ∈ r.diagnostics, lookupOpcode d.op = none

/-- The budget of a run in progress is at least `floor` (41_engine.md R136: an overshoot ends at -4 at the lowest). -/
def State.budgetAtLeast (floor : Int) (s : State) : Prop := ∀ r, s.run = some r → floor ≤ r.budget

/-- A state a step can hand on: the next state, or the state a fault carries, from which the host goes on
(60_exceptions.md R208, R209). -/
def handsOn (outcome : Host.Outcome State Fault Refusal) (t : State) : Prop :=
  outcome = .next t ∨ (∃ ea, outcome = .fault (.outOfRange ea t)) ∨ ∃ a op, outcome = .fault (.unhandledStop a op t)

/-- A step that runs an assigned opcode to its end: no fault, no diagnostic added (00_scope.md R11, 60_exceptions.md
R203). -/
def cleanStep (s t : State) : Prop :=
  step s = .next t ∧ t.run.map (fun r => r.diagnostics) = s.run.map (fun r => r.diagnostics)

end Sys2Proof.Machine
end

