-- ==== Sys2Proof/Certificates/Slice0/Obligations.lean ====
section
/-! DEFINITION. The statements for the provers, from the numbered rules of spec/. Each names the rule it formalises; the
terms they share are in Sys2Proof/Safety.lean. -/

section

open Sys2Proof Sys2Proof.Machine

/-! ### Reset, power-on and the host interface -/

/-- 10_state.md R44: what reset leaves, as its table says, and that the host's reset gives exactly that state from every idle
state. -/
def Obligations.ResetLeavesDocumentedState : Prop :=
  State.reset.pc = 0xFFFC#16 ∧ State.reset.sp = 0x0100#16 ∧
    (∀ r, State.reset.getReg r = 0x00#8) ∧ (∀ f, State.reset.getFlag f = false) ∧ State.reset.getStatus = 0x20#8 ∧
    (∀ a, a < 65536 → State.reset.memRead a = some 0x00#8) ∧
    State.reset.runState = .idle ∧ State.reset.run = none ∧
    ∀ strict s, s.runState = .idle → hostOp strict .reset s = some (.done, State.reset)

/-- 10_state.md R43: everything is zero at power-on, every byte reads 0 and the engine is idle. -/
def Obligations.PowerOnStateIsZero : Prop :=
  State.powerOn.pc = 0x0000#16 ∧ State.powerOn.sp = 0x0000#16 ∧
    (∀ r, State.powerOn.getReg r = 0x00#8) ∧ (∀ f, State.powerOn.getFlag f = false) ∧
    (∀ a, a < 65536 → State.powerOn.memRead a = some 0x00#8) ∧ State.powerOn.runState = .idle

/-- 70_reset_and_hazards.md section 3: every operation is possible exactly while `run_state = idle`. That none is possible
while running is the spec's own decision D21 (log entry 15). -/
def Obligations.HostActsOnlyWhileIdle : Prop :=
  ∀ strict c s,
    (s.runState = .running → hostOp strict c s = none) ∧ (s.runState = .idle → ∃ reply t, hostOp strict c s = some (reply, t))

/-- 20_memory.md R61, R80, 60_exceptions.md R201: a read answers the stored byte and changes nothing; a write and the read
after it; every other byte unchanged; the failure of both at and beyond the capacity, with nothing changed. -/
def Obligations.MemoryRoundTrip : Prop :=
  ∀ strict s a v, s.runState = .idle →
    (a < 65536 →
      hostOp strict (.read a) s = some (.byte (s.mem.readByte a), s) ∧
      ∃ t, hostOp strict (.write a v) s = some (.byte v, t) ∧
        hostOp strict (.read a) t = some (.byte v, t) ∧
        (∀ a', a' ≠ a → t.mem.readByte a' = s.mem.readByte a') ∧
        t = { s with mem := t.mem }) ∧
    (65536 ≤ a →
      hostOp strict (.write a v) s = some (.outOfRange a, s) ∧ hostOp strict (.read a) s = some (.outOfRange a, s))

/-- 20_memory.md R63: reinitialize makes every byte zero and touches no register and no flag. -/
def Obligations.ReinitializeClearsOnlyMemory : Prop :=
  ∀ strict s, s.runState = .idle →
    ∃ t, hostOp strict .reinitialize s = some (.done, t) ∧
      (∀ a, t.mem.readByte a = 0x00#8) ∧ t = { s with mem := t.mem }

/-- 10_state.md R36: each getter gives its register or flag and changes no state. -/
def Obligations.GettersChangeNothing : Prop :=
  ∀ strict s, s.runState = .idle →
    hostOp strict (.getReg .a) s = some (.byte s.a, s) ∧ hostOp strict (.getReg .x) s = some (.byte s.x, s) ∧
    hostOp strict (.getReg .y) s = some (.byte s.y, s) ∧
    hostOp strict .getPc s = some (.word s.pc, s) ∧ hostOp strict .getSp s = some (.word s.sp, s) ∧
    hostOp strict (.getFlag .c) s = some (.bit s.flags.c, s) ∧ hostOp strict (.getFlag .z) s = some (.bit s.flags.z, s) ∧
    hostOp strict (.getFlag .i) s = some (.bit s.flags.i, s) ∧ hostOp strict (.getFlag .d) s = some (.bit s.flags.d, s) ∧
    hostOp strict (.getFlag .b) s = some (.bit s.flags.b, s) ∧ hostOp strict (.getFlag .v) s = some (.bit s.flags.v, s) ∧
    hostOp strict (.getFlag .n) s = some (.bit s.flags.n, s)

/-- 10_state.md R37, R38: a plain setter writes its register and nothing else; a deriving setter writes its register, Z
and N and nothing else. That there are two setters for A, X and Y is the spec's own decision D16 (log entry 20). -/
def Obligations.SettersWriteOnlyTheirTargets : Prop :=
  ∀ strict s v w, s.runState = .idle →
    hostOp strict (.setReg .a v) s = some (.done, { s with a := v }) ∧
    hostOp strict (.setReg .x v) s = some (.done, { s with x := v }) ∧
    hostOp strict (.setReg .y v) s = some (.done, { s with y := v }) ∧
    hostOp strict (.setPc w) s = some (.done, { s with pc := w }) ∧
    hostOp strict (.setSp w) s = some (.done, { s with sp := w }) ∧
    hostOp strict (.setDeriving .a v) s =
      some (.done, { s with a := v, flags := { s.flags with z := decide (v = 0#8), n := decide (v &&& 0x80#8 ≠ 0#8) } }) ∧
    hostOp strict (.setDeriving .x v) s =
      some (.done, { s with x := v, flags := { s.flags with z := decide (v = 0#8), n := decide (v &&& 0x80#8 ≠ 0#8) } }) ∧
    hostOp strict (.setDeriving .y v) s =
      some (.done, { s with y := v, flags := { s.flags with z := decide (v = 0#8), n := decide (v &&& 0x80#8 ≠ 0#8) } })

/-- 10_state.md R33, R34: the status byte's weights, the bits set_status takes, and both as host operations. -/
def Obligations.StatusByteLayout : Prop :=
  (∀ s : State, s.getStatus.toNat =
    128 * s.flags.n.toNat + 64 * s.flags.v.toNat + 32 + 16 * s.flags.b.toNat + 8 * s.flags.d.toNat +
      4 * s.flags.i.toNat + 2 * s.flags.z.toNat + s.flags.c.toNat) ∧
  (∀ (s : State) (b : Byte), s.setStatus b =
    { s with flags := ⟨b.getLsbD 0, b.getLsbD 1, b.getLsbD 2, b.getLsbD 3, b.getLsbD 4, b.getLsbD 6, b.getLsbD 7⟩ }) ∧
  ∀ strict (s : State) (b : Byte), s.runState = .idle →
    hostOp strict .getStatus s = some (.byte s.getStatus, s) ∧ hostOp strict (.setStatus b) s = some (.done, s.setStatus b)

/-- 10_state.md R35: the status byte read after it was set is the byte with bit 5 forced to 1, and setting what was read
changes nothing (the spec's own inference from R33 and R34). -/
def Obligations.StatusByteRoundTrip : Prop :=
  (∀ (s : State) (b : Byte), (s.setStatus b).getStatus = b ||| 0x20#8) ∧ ∀ s : State, s.setStatus s.getStatus = s

/-- 20_memory.md R75, R77, R79: the charged primitives. A fetch gives the byte at `pc`, moves `pc` by one modulo 65536
and charges one cycle; a data read or write charges one cycle after the access, and neither when it is out of range. -/
def Obligations.ChargedAccessPrimitives : Prop :=
  ∀ (s : State) (r : Run) (a : Nat) (v : Byte), s.run = some r →
    (s.fetch8.1 = s.mem.readByte s.pc.toNat ∧ s.fetch8.2.pc.toNat = (s.pc.toNat + 1) % 65536 ∧
      s.fetch8.2 =
        { s with
          pc := s.fetch8.2.pc
          run := some
            { r with
              budget := r.budget - 1
              accesses := r.accesses ++ [⟨.fetch, s.pc.toNat, s.mem.readByte s.pc.toNat⟩] } }) ∧
    (a < 65536 →
      s.read8 a = some (s.mem.readByte a,
        { s with
          run := some
            { r with
              budget := r.budget - 1, accesses := r.accesses ++ [⟨.dataRead, a, s.mem.readByte a⟩] } }) ∧
      ∃ t, s.write8 a v = some t ∧ t.mem.readByte a = v ∧ (∀ a', a' ≠ a → t.mem.readByte a' = s.mem.readByte a') ∧
        t =
          { s with
            mem := t.mem
            run := some { r with budget := r.budget - 1, accesses := r.accesses ++ [⟨.dataWrite, a, v⟩] } }) ∧
    (65536 ≤ a → s.read8 a = none ∧ s.write8 a v = none)

/-! ### Encoding -/

/-- 30_encoding.md sections 1 to 3: decoding an instruction's bytes gives it back, whatever bytes follow. 28 of the opcode
values are the spec's own decision D18 (log entry 11). -/
def Obligations.DecodeInvertsEncode : Prop :=
  ∀ (i : Instr) (rest : List Byte), i.wellFormed = true → decode (encode i ++ rest) = .instr i rest

/-- 30_encoding.md sections 1 to 3: what decodes to an instruction is that instruction's encoding, of its length. 28 of the
opcode values are the spec's own decision D18 (log entry 11). -/
def Obligations.DecodedBytesAreTheEncoding : Prop :=
  ∀ (bytes rest : List Byte) (i : Instr), decode bytes = .instr i rest →
    bytes = encode i ++ rest ∧ (encode i).length = i.length ∧ i.wellFormed = true

/-- 30_encoding.md R93: the assigned opcode bytes are exactly the 31 of the table, and each of the 225 others is rejected
by name, whatever follows it. Which bytes these are is the spec's own decision D18 (log entry 11). -/
def Obligations.UnassignedOpcodesAreRejected : Prop :=
  (∀ (op : Byte) (rest : List Byte),
    decode (op :: rest) = .unassigned op ↔
      op ∉ ([0xA9, 0xA5, 0xB5, 0xAD, 0xBD, 0xB9, 0xA1, 0xB1, 0xA2, 0xA6, 0xB6, 0xAE, 0xBE, 0xA0, 0xA4, 0xB4, 0xAC, 0xBC,
        0x85, 0x95, 0x8D, 0x9D, 0x99, 0x81, 0x91, 0x86, 0x96, 0x8E, 0x84, 0x94, 0x8C] : List Byte)) ∧
  ((List.range 256).filter fun n => (lookupOpcode (BitVec.ofNat 8 n)).isNone).length = 225

/-- 30_encoding.md R93: the descriptors of the instructions are exactly the register-mode pairs that exist. Which pairs
exist is the spec's own decision D18 (log entry 11). -/
def Obligations.DescriptorsAreTheValidPairs : Prop :=
  ∀ e : Entry, e.valid = true ↔ ∃ i : Instr, i.entry = e

/-- 30_encoding.md section 5: the example bytes of its table, and three stores, decode to the instructions they stand for.
The notation is the spec's decision D19, the opcode values D18 (log entry 11). -/
def Obligations.ExampleBytesDecode : Prop :=
  decode [0xA9, 0x42] = .instr (.ldaImm 0x42) [] ∧ decode [0xA5, 0x10] = .instr (.ldaZp 0x10) [] ∧
    decode [0xB5, 0x10] = .instr (.ldaZpx 0x10) [] ∧ decode [0xB6, 0x10] = .instr (.ldxZpy 0x10) [] ∧
    decode [0xAD, 0x34, 0x12] = .instr (.ldaAbs 0x1234) [] ∧ decode [0xBD, 0x34, 0x12] = .instr (.ldaAbsx 0x1234) [] ∧
    decode [0xB9, 0x34, 0x12] = .instr (.ldaAbsy 0x1234) [] ∧ decode [0xA1, 0x20] = .instr (.ldaIndx 0x20) [] ∧
    decode [0xB1, 0x20] = .instr (.ldaIndy 0x20) [] ∧ decode [0x8D, 0x34, 0x12] = .instr (.staAbs 0x1234) [] ∧
    decode [0x96, 0x10] = .instr (.stxZpy 0x10) [] ∧ decode [0x94, 0x10] = .instr (.styZpx 0x10) []

/-! ### The step -/

/-- 41_engine.md section 1: with fuel, a step at bytes that decode to an instruction is exec of it, for both settings of
STRICT_UNHANDLED, with nothing around exec: the meaning itself fetches the bytes and moves `pc` past them. -/
def Obligations.StepRunsTheDecodedInstruction : Prop :=
  ∀ strict s i rest, s.fueled →
    decode [s.byteAt s.pc, s.byteAt (s.pc + 1), s.byteAt (s.pc + 2)] = .instr i rest → i.wellFormed = true →
    stepWith strict s = exec i s ∧ step s = exec i s

/-- 41_engine.md R134: an unassigned opcode costs its fetch, moves `pc` by 1, adds the diagnostic and changes nothing else;
the run goes on, or stops there in strict mode. The diagnostic's contents and strict mode are the spec's own decisions D12
and D11 (log entries 14 and 2). -/
def Obligations.UnassignedOpcodeIsConsumed : Prop :=
  ∀ (s : State) (r : Run), s.run = some r → 0 < r.budget → lookupOpcode (s.byteAt s.pc) = none →
    let t : State :=
      { s with
        pc := s.pc + 1
        run := some
          { budget := r.budget - 1
            diagnostics := r.diagnostics ++ [⟨s.pc, s.byteAt s.pc⟩]
            accesses := r.accesses ++ [⟨.fetch, s.pc.toNat, s.byteAt s.pc⟩] } }
    stepWith false s = .next t ∧ step s = .next t ∧
      stepWith true s = .fault (.unhandledStop s.pc (s.byteAt s.pc) t)

/-- 41_engine.md section 1: an idle engine keeps all its state; a run whose budget is not positive ends and changes nothing
but the engine's own state. That these are steps of the machine is the model's own choice (log entry 6). -/
def Obligations.StepWithoutFuel : Prop :=
  ∀ strict (s : State),
    (s.runState = .idle → stepWith strict s = .next s) ∧
    (∀ r, s.run = some r → r.budget ≤ 0 → stepWith strict s = .next { s with run := none }) ∧
    stepWith Config.strictUnhandled s = step s

/-- 41_engine.md section 5, 10_state.md section 3: `pc` after an iteration is past the instruction, or past the one byte of
an unassigned opcode, whether the iteration completes or stops. That it wraps modulo 65536 is the spec's own decision D5
(log entry 8). -/
def Obligations.IterationMovesPcPastInstruction : Prop :=
  ∀ strict s t, s.fueled → handsOn (stepWith strict s) t →
    (∀ i rest, decode s.codeBytes = .instr i rest → t.pc.toNat = (s.pc.toNat + i.length) % 65536) ∧
    (∀ op, decode s.codeBytes = .unassigned op → t.pc.toNat = (s.pc.toNat + 1) % 65536)

/-- 30_encoding.md R99: an F3 instruction whose opcode is at 0xFFFE takes its low operand byte at 0xFFFF and its high
operand byte at 0x0000 and leaves `pc` at 0x0001. The wrap is the spec's own decision D5 (log entry 8). -/
def Obligations.InstructionStraddlesTheTop : Prop :=
  ∀ s i, s.fueled → i.length = 3 → s.pc = 0xFFFE#16 →
    [s.byteAt 0xFFFE#16, s.byteAt 0xFFFF#16, s.byteAt 0x0000#16] = encode i →
    step s = exec i s ∧ ∀ t, handsOn (step s) t → t.pc = 0x0001#16

/-- 20_memory.md section 5: the byte a store writes at the address `pc` then holds is the one the next iteration fetches as
its opcode. The spec marks this as its own inference and decision D25. -/
def Obligations.NextFetchSeesTheStore : Prop :=
  ∀ s i t, i.entry.action = .store → exec i s = .next t → effectiveAddress s i = some t.pc.toNat →
    t.fetch8.1 = s.getReg i.entry.reg

/-- 40_addressing_modes.md R112, R113, R115: the resolvers of zero page, zero page indexed by X and absolute, on the bytes
they fetch at `pc`: the effective address, the fetches and their charge, the advance of `pc`. -/
def Obligations.ResolversOfZpZpxAbs : Prop :=
  ∀ (s : State),
    let b := s.byteAt s.pc
    let h := s.byteAt (s.pc + 1)
    resolveZp b s = (b.toNat, s.afterAccesses 1 []) ∧
    resolveZpx b s = ((b.toNat + s.x.toNat) % 256, s.afterAccesses 1 []) ∧
    resolveAbs (h ++ b) s = (h.toNat * 256 + b.toNat, s.afterAccesses 2 [])

/-! ### The load instructions: encoding, result, accesses, charge -/

/-- 42_load.md R151. -/
def Obligations.LdaImmediateResult : Prop :=
  ∀ (b : Byte) (rest : List Byte) (s : State),
    decode (0xA9 :: b :: rest) = .instr (.ldaImm b) rest ∧ exec (.ldaImm b) s = .next (s.afterLoad .a b 2 [])

/-- 42_load.md R159, R164. The opcode values are the spec's own decision D18 (log entry 11). -/
def Obligations.LoadIndexImmediateResult : Prop :=
  ∀ (b : Byte) (rest : List Byte) (s : State),
    (decode (0xA2 :: b :: rest) = .instr (.ldxImm b) rest ∧ exec (.ldxImm b) s = .next (s.afterLoad .x b 2 [])) ∧
    (decode (0xA0 :: b :: rest) = .instr (.ldyImm b) rest ∧ exec (.ldyImm b) s = .next (s.afterLoad .y b 2 []))

/-- 42_load.md R152. -/
def Obligations.LdaZeroPageResult : Prop :=
  ∀ (b : Byte) (rest : List Byte) (s : State),
    decode (0xA5 :: b :: rest) = .instr (.ldaZp b) rest ∧
      exec (.ldaZp b) s = .next (s.afterLoadFrom .a b.toNat 2 [])

/-- 42_load.md R160, R165. The opcode values are the spec's own decision D18 (log entry 11). -/
def Obligations.LoadIndexZeroPageResult : Prop :=
  ∀ (b : Byte) (rest : List Byte) (s : State),
    (decode (0xA6 :: b :: rest) = .instr (.ldxZp b) rest ∧
      exec (.ldxZp b) s = .next (s.afterLoadFrom .x b.toNat 2 [])) ∧
    (decode (0xA4 :: b :: rest) = .instr (.ldyZp b) rest ∧
      exec (.ldyZp b) s = .next (s.afterLoadFrom .y b.toNat 2 []))

/-- 42_load.md R153, R161, R166: the sum wraps within the zero page. The opcode values are the spec's own decision D18 (log
entry 11). -/
def Obligations.LoadZeroPageIndexedResult : Prop :=
  ∀ (b : Byte) (rest : List Byte) (s : State),
    (decode (0xB5 :: b :: rest) = .instr (.ldaZpx b) rest ∧
      exec (.ldaZpx b) s = .next (s.afterLoadFrom .a ((b.toNat + s.x.toNat) % 256) 2 [])) ∧
    (decode (0xB6 :: b :: rest) = .instr (.ldxZpy b) rest ∧
      exec (.ldxZpy b) s = .next (s.afterLoadFrom .x ((b.toNat + s.y.toNat) % 256) 2 [])) ∧
    (decode (0xB4 :: b :: rest) = .instr (.ldyZpx b) rest ∧
      exec (.ldyZpx b) s = .next (s.afterLoadFrom .y ((b.toNat + s.x.toNat) % 256) 2 []))

/-- 42_load.md R154, R162, R167. The opcode values are the spec's own decision D18 (log entry 11). -/
def Obligations.LoadAbsoluteResult : Prop :=
  (∀ (l h : Byte) (rest : List Byte),
    decode (0xAD :: l :: h :: rest) = .instr (.ldaAbs (h ++ l)) rest ∧
    decode (0xAE :: l :: h :: rest) = .instr (.ldxAbs (h ++ l)) rest ∧
    decode (0xAC :: l :: h :: rest) = .instr (.ldyAbs (h ++ l)) rest) ∧
  ∀ (w : Word) (s : State),
    exec (.ldaAbs w) s = .next (s.afterLoadFrom .a w.toNat 3 []) ∧
    exec (.ldxAbs w) s = .next (s.afterLoadFrom .x w.toNat 3 []) ∧
    exec (.ldyAbs w) s = .next (s.afterLoadFrom .y w.toNat 3 [])

/-- 42_load.md R155, R156, R163, R168: the load completes when the sum is below 65536; otherwise the run stops with the
register and flags unchanged, `pc` past the instruction and three cycles charged. The unreduced sum is the spec's own
decision D4, the stop D10, the opcode values D18 (log entries 7, 1 and 11). -/
def Obligations.LoadAbsoluteIndexedResult : Prop :=
  (∀ (l h : Byte) (rest : List Byte),
    decode (0xBD :: l :: h :: rest) = .instr (.ldaAbsx (h ++ l)) rest ∧
    decode (0xB9 :: l :: h :: rest) = .instr (.ldaAbsy (h ++ l)) rest ∧
    decode (0xBE :: l :: h :: rest) = .instr (.ldxAbsy (h ++ l)) rest ∧
    decode (0xBC :: l :: h :: rest) = .instr (.ldyAbsx (h ++ l)) rest) ∧
  ∀ (w : Word) (s : State),
    (w.toNat + s.x.toNat < 65536 →
      exec (.ldaAbsx w) s = .next (s.afterLoadFrom .a (w.toNat + s.x.toNat) 3 []) ∧
      exec (.ldyAbsx w) s = .next (s.afterLoadFrom .y (w.toNat + s.x.toNat) 3 [])) ∧
    (w.toNat + s.y.toNat < 65536 →
      exec (.ldaAbsy w) s = .next (s.afterLoadFrom .a (w.toNat + s.y.toNat) 3 []) ∧
      exec (.ldxAbsy w) s = .next (s.afterLoadFrom .x (w.toNat + s.y.toNat) 3 [])) ∧
    (65536 ≤ w.toNat + s.x.toNat →
      exec (.ldaAbsx w) s = .fault (.outOfRange (w.toNat + s.x.toNat) (s.afterAccesses 3 [])) ∧
      exec (.ldyAbsx w) s = .fault (.outOfRange (w.toNat + s.x.toNat) (s.afterAccesses 3 []))) ∧
    (65536 ≤ w.toNat + s.y.toNat →
      exec (.ldaAbsy w) s = .fault (.outOfRange (w.toNat + s.y.toNat) (s.afterAccesses 3 [])) ∧
      exec (.ldxAbsy w) s = .fault (.outOfRange (w.toNat + s.y.toNat) (s.afterAccesses 3 [])))

/-- 42_load.md R157: the pointer wraps into the zero page. That its second byte does not is the spec's own decision D15, the
opcode value D18 (log entries 10 and 11). -/
def Obligations.LoadIndirectXResult : Prop :=
  ∀ (b : Byte) (rest : List Byte) (s : State),
    let p := BitVec.ofNat 16 ((b.toNat + s.x.toNat) % 256)
    decode (0xA1 :: b :: rest) = .instr (.ldaIndx b) rest ∧
      exec (.ldaIndx b) s = .next (s.afterLoadFrom .a (s.wordAt p.toNat) 2 (pointerReads s p))

/-- 42_load.md R158: the word at the pointer plus Y, not reduced; otherwise the run stops with the register and flags
unchanged, `pc` past the instruction and four cycles charged. The unreduced sum is the spec's own decision D4, the stop
D10, the pointer at 0xFF D15, the opcode value D18 (log entries 7, 1, 10 and 11). -/
def Obligations.LoadIndirectYResult : Prop :=
  ∀ (b : Byte) (rest : List Byte) (s : State),
    let p := BitVec.ofNat 16 b.toNat
    let ea := s.wordAt p.toNat + s.y.toNat
    decode (0xB1 :: b :: rest) = .instr (.ldaIndy b) rest ∧
      (ea < 65536 → exec (.ldaIndy b) s = .next (s.afterLoadFrom .a ea 2 (pointerReads s p))) ∧
      (65536 ≤ ea → exec (.ldaIndy b) s = .fault (.outOfRange ea (s.afterAccesses 2 (pointerReads s p))))

/-- 42_load.md R150: the load action. The destination holds the operand byte of mode IMM or the byte at the effective
address, Z and N say whether it is 0 and what its bit 7 is, no other flag is touched, and one data byte is read, none in
mode IMM. If the read raises, neither the register nor a flag is written. -/
def Obligations.LoadActionWritesRegisterZAndN : Prop :=
  ∀ i (s : State), i.entry.action = .load →
    (∀ t, exec i s = .next t →
      let v := t.getReg i.entry.reg
      (effectiveAddress s i = none → i.operandBytes = [v]) ∧
      (∀ ea, effectiveAddress s i = some ea → v = s.mem.readByte ea) ∧
      t.flags = { s.flags with z := decide (v = 0#8), n := decide (128 ≤ v.toNat) } ∧
      t.run.map (fun r => r.countOf .dataRead) =
        s.run.map (fun r => r.countOf .dataRead + if i.entry.mode = .imm then 0 else 1)) ∧
    (∀ ea t, exec i s = .fault (.outOfRange ea t) → (∀ r, t.getReg r = s.getReg r) ∧ t.flags = s.flags)

/-- 10_state.md section 10, 42_load.md section 1: the frame of the 18 loads. Only the destination register, Z, N, `pc` and
the run change; every byte of memory reads as before. (The spec's own inference from its rules.) -/
def Obligations.LoadsChangeOnlyDestinationAndZN : Prop :=
  ∀ i s t, i.entry.action = .load → exec i s = .next t →
    (∀ r, r ≠ i.entry.reg → t.getReg r = s.getReg r) ∧ t.sp = s.sp ∧
    t.flags.c = s.flags.c ∧ t.flags.i = s.flags.i ∧ t.flags.d = s.flags.d ∧ t.flags.b = s.flags.b ∧
    t.flags.v = s.flags.v ∧ (∀ a, t.mem.readByte a = s.mem.readByte a) ∧ t.runState = s.runState ∧
    t.run.map (fun r => r.diagnostics) = s.run.map (fun r => r.diagnostics)

/-! ### The store instructions -/

/-- 43_store.md R171. -/
def Obligations.StaZeroPageResult : Prop :=
  ∀ (b : Byte) (rest : List Byte) (s : State),
    decode (0x85 :: b :: rest) = .instr (.staZp b) rest ∧ exec (.staZp b) s = .next (s.afterStore b.toNat s.a 2 [])

/-- 43_store.md R178, R181. The opcode values are the spec's own decision D18 (log entry 11). -/
def Obligations.StoreIndexZeroPageResult : Prop :=
  ∀ (b : Byte) (rest : List Byte) (s : State),
    (decode (0x86 :: b :: rest) = .instr (.stxZp b) rest ∧ exec (.stxZp b) s = .next (s.afterStore b.toNat s.x 2 [])) ∧
    (decode (0x84 :: b :: rest) = .instr (.styZp b) rest ∧ exec (.styZp b) s = .next (s.afterStore b.toNat s.y 2 []))

/-- 43_store.md R172, R179, R182: the sum wraps within the zero page. The opcode values are the spec's own decision D18 (log
entry 11). -/
def Obligations.StoreZeroPageIndexedResult : Prop :=
  ∀ (b : Byte) (rest : List Byte) (s : State),
    (decode (0x95 :: b :: rest) = .instr (.staZpx b) rest ∧
      exec (.staZpx b) s = .next (s.afterStore ((b.toNat + s.x.toNat) % 256) s.a 2 [])) ∧
    (decode (0x96 :: b :: rest) = .instr (.stxZpy b) rest ∧
      exec (.stxZpy b) s = .next (s.afterStore ((b.toNat + s.y.toNat) % 256) s.x 2 [])) ∧
    (decode (0x94 :: b :: rest) = .instr (.styZpx b) rest ∧
      exec (.styZpx b) s = .next (s.afterStore ((b.toNat + s.x.toNat) % 256) s.y 2 []))

/-- 43_store.md R173, R180, R183. The opcode values are the spec's own decision D18 (log entry 11). -/
def Obligations.StoreAbsoluteResult : Prop :=
  (∀ (l h : Byte) (rest : List Byte),
    decode (0x8D :: l :: h :: rest) = .instr (.staAbs (h ++ l)) rest ∧
    decode (0x8E :: l :: h :: rest) = .instr (.stxAbs (h ++ l)) rest ∧
    decode (0x8C :: l :: h :: rest) = .instr (.styAbs (h ++ l)) rest) ∧
  ∀ (w : Word) (s : State),
    exec (.staAbs w) s = .next (s.afterStore w.toNat s.a 3 []) ∧
    exec (.stxAbs w) s = .next (s.afterStore w.toNat s.x 3 []) ∧
    exec (.styAbs w) s = .next (s.afterStore w.toNat s.y 3 [])

/-- 43_store.md R174, R175: the store completes when the sum is below 65536; otherwise the run stops with memory unchanged,
`pc` past the instruction and three cycles charged. The unreduced sum is the spec's own decision D4, the stop D10, the
opcode values D18 (log entries 7, 1 and 11). -/
def Obligations.StoreAbsoluteIndexedResult : Prop :=
  (∀ (l h : Byte) (rest : List Byte),
    decode (0x9D :: l :: h :: rest) = .instr (.staAbsx (h ++ l)) rest ∧
    decode (0x99 :: l :: h :: rest) = .instr (.staAbsy (h ++ l)) rest) ∧
  ∀ (w : Word) (s : State),
    (w.toNat + s.x.toNat < 65536 →
      exec (.staAbsx w) s = .next (s.afterStore (w.toNat + s.x.toNat) s.a 3 [])) ∧
    (w.toNat + s.y.toNat < 65536 →
      exec (.staAbsy w) s = .next (s.afterStore (w.toNat + s.y.toNat) s.a 3 [])) ∧
    (65536 ≤ w.toNat + s.x.toNat →
      exec (.staAbsx w) s = .fault (.outOfRange (w.toNat + s.x.toNat) (s.afterAccesses 3 []))) ∧
    (65536 ≤ w.toNat + s.y.toNat →
      exec (.staAbsy w) s = .fault (.outOfRange (w.toNat + s.y.toNat) (s.afterAccesses 3 [])))

/-- 43_store.md R176: the pointer wraps into the zero page. That its second byte does not is the spec's own decision D15,
the opcode value D18 (log entries 10 and 11). -/
def Obligations.StoreIndirectXResult : Prop :=
  ∀ (b : Byte) (rest : List Byte) (s : State),
    let p := BitVec.ofNat 16 ((b.toNat + s.x.toNat) % 256)
    decode (0x81 :: b :: rest) = .instr (.staIndx b) rest ∧
      exec (.staIndx b) s = .next (s.afterStore (s.wordAt p.toNat) s.a 2 (pointerReads s p))

/-- 43_store.md R177: the word at the pointer plus Y, not reduced; otherwise the run stops with memory unchanged, `pc` past
the instruction and four cycles charged. The unreduced sum is the spec's own decision D4, the stop D10, the pointer at
0xFF D15, the opcode value D18 (log entries 7, 1, 10 and 11). -/
def Obligations.StoreIndirectYResult : Prop :=
  ∀ (b : Byte) (rest : List Byte) (s : State),
    let p := BitVec.ofNat 16 b.toNat
    let ea := s.wordAt p.toNat + s.y.toNat
    decode (0x91 :: b :: rest) = .instr (.staIndy b) rest ∧
      (ea < 65536 → exec (.staIndy b) s = .next (s.afterStore ea s.a 2 (pointerReads s p))) ∧
      (65536 ≤ ea → exec (.staIndy b) s = .fault (.outOfRange ea (s.afterAccesses 2 (pointerReads s p))))

/-- 43_store.md R170: the store action, with the frame of the 13 stores. No register and no flag changes; the byte at the
effective address, computed as the meaning computes it, becomes the source register's value; every other byte reads as
before; one byte is written and no data byte is read. If the write raises, memory, registers and flags are unchanged. -/
def Obligations.StoreActionChangesOnlyTheStoredByte : Prop :=
  ∀ i (s : State), i.entry.action = .store →
    (∀ t, exec i s = .next t →
      (∀ r, t.getReg r = s.getReg r) ∧ t.sp = s.sp ∧ t.flags = s.flags ∧ t.runState = s.runState ∧
      t.run.map (fun r => r.diagnostics) = s.run.map (fun r => r.diagnostics) ∧
      t.run.map (fun r => r.countOf .dataRead) = s.run.map (fun r => r.countOf .dataRead) ∧
      t.run.map (fun r => r.countOf .dataWrite) = s.run.map (fun r => r.countOf .dataWrite + 1) ∧
      ∃ ea, effectiveAddress s i = some ea ∧ ea < 65536 ∧ t.mem.readByte ea = s.getReg i.entry.reg ∧
        ∀ a, a ≠ ea → t.mem.readByte a = s.mem.readByte a) ∧
    (∀ ea t, exec i s = .fault (.outOfRange ea t) →
      t.mem = s.mem ∧ (∀ r, t.getReg r = s.getReg r) ∧ t.sp = s.sp ∧ t.flags = s.flags)

/-! ### All instructions -/

/-- 41_engine.md R141: cost, access kinds in order and `pc` advance of every iteration kind, and one cycle less, and no data
access, when the data access raises. The spec marks the table as its own inference; that an index addition is free is its
decision D7, that a failed access is not charged D10 (log entries 9 and 1). -/
def Obligations.CostsAndAccessOrder : Prop :=
  ∀ i (s : State) (r : Run), s.run = some r →
    (∀ t, exec i s = .next t →
      ∃ accesses, t.run = some { r with budget := r.budget - i.entry.mode.cycles, accesses := r.accesses ++ accesses } ∧
        accesses.map (fun access => access.kind) = i.entry.mode.kindsBeforeData ++ i.entry.dataKind ∧
        t.pc = s.pc + BitVec.ofNat 16 i.length) ∧
    (∀ f, exec i s = .fault f →
      ∃ ea t accesses, f = .outOfRange ea t ∧
        t.run = some { r with budget := r.budget - (i.entry.mode.cycles - 1), accesses := r.accesses ++ accesses } ∧
        accesses.map (fun access => access.kind) = i.entry.mode.kindsBeforeData ∧
        t.pc = s.pc + BitVec.ofNat 16 i.length) ∧
    (∀ strict t, 0 < r.budget → lookupOpcode (s.byteAt s.pc) = none → handsOn (stepWith strict s) t →
      ∃ u, t.run = some u ∧ u.budget = r.budget - 1 ∧
        u.accesses.map (fun access => access.kind) = r.accesses.map (fun access => access.kind) ++ [.fetch] ∧
        t.pc = s.pc + 1)

/-- 60_exceptions.md section 1: an instruction faults exactly when it is one of the eight opcodes and its effective address
is 65536 or more; the fault is OutOfRange of that address, in a state where only `pc` and the run have changed; otherwise
it answers a next state. The unreduced sum is the spec's own decision D4, the stop D10 (log entries 7 and 1). -/
def Obligations.OnlyEightOpcodesRaiseOutOfRange : Prop :=
  ∀ i s,
    (∀ f, exec i s = .fault f →
      i.opcode ∈ ([0xBD, 0xB9, 0xB1, 0xBE, 0xBC, 0x9D, 0x99, 0x91] : List Byte) ∧
      ∃ ea t, effectiveAddress s i = some ea ∧ 65536 ≤ ea ∧ f = .outOfRange ea t ∧ t = { s with pc := t.pc, run := t.run }) ∧
    ((∃ f, exec i s = .fault f) ↔ ∃ ea, effectiveAddress s i = some ea ∧ 65536 ≤ ea) ∧
    ((¬∃ f, exec i s = .fault f) → ∃ t, exec i s = .next t)

/-- 10_state.md R47: no flag influences execution. From two states that differ in their flags alone, an instruction leaves
states that differ in their flags alone, or stops both at the same address. (The spec's own inference.) -/
def Obligations.FlagsDoNotInfluenceExecution : Prop :=
  ∀ i (s : State) (f : Flags),
    (∀ t, exec i s = .next t → ∃ g, exec i { s with flags := f } = .next { t with flags := g }) ∧
    (∀ ea t, exec i s = .fault (.outOfRange ea t) →
      exec i { s with flags := f } = .fault (.outOfRange ea { t with flags := f }))

/-! ### The stack primitive -/

/-- 44_stack.md R191, R192: the stack address, the two writes, the two decrements, the two charges. The address formula and
the 16-bit decrement are the spec's own decision D13, the charge D14 (log entry 12). -/
def Obligations.PushWordWritesHighThenLow : Prop :=
  ∀ (s : State) (w : Word),
    s.stackAddr.toNat = 0x0100 + s.sp.toNat % 256 ∧
    s.pushWord w =
      (let hiAt := 0x0100 + s.sp.toNat % 256
       let loAt := 0x0100 + (s.sp - 1).toNat % 256
       let hi := BitVec.ofNat 8 (w.toNat / 256)
       let lo := BitVec.ofNat 8 (w.toNat % 256)
       { s with
         mem := (s.mem.writeByte hiAt hi).writeByte loAt lo
         sp := s.sp - 2
         run := s.run.map fun r =>
           { r with
             budget := r.budget - 2
             accesses := r.accesses ++ [⟨.dataWrite, hiAt, hi⟩, ⟨.dataWrite, loAt, lo⟩] } })

/-- 44_stack.md section on the wrap: a push changes bytes of the stack page only, for every value of `sp`, and when
`sp[7:0]` is 0 its low byte lands at 0x01FF. The address formula is the spec's own decision D13 (log entry 12). -/
def Obligations.PushWordStaysInStackPage : Prop :=
  ∀ (s : State) (w : Word),
    (∀ a, (a < 0x0100 ∨ 0x01FF < a) → (s.pushWord w).mem.readByte a = s.mem.readByte a) ∧
    (s.sp.toNat % 256 = 0 →
      (s.pushWord w).mem.readByte 0x0100 = highByte w ∧ (s.pushWord w).mem.readByte 0x01FF = lowByte w)

/-- 44_stack.md R195's sentence on runs: during any run `sp` keeps the value it had at the start of the run. (The spec's own
inference.) -/
def Obligations.RunsKeepTheStackPointer : Prop :=
  (∀ strict s t, handsOn (stepWith strict s) t → t.sp = s.sp) ∧
    ∀ strict (s : State) b0, (s.execute strict b0).state.sp = s.sp

/-! ### Invariants -/

/-- Reset and power-on meet the model's invariant (Safety.lean, `State.inv`), which its choices of representation call for
(log entries 3 and 5). -/
def Obligations.ResetMeetsTheInvariant : Prop :=
  State.reset.inv ∧ State.powerOn.inv

/-- The model's invariant (memory in canonical form, every recorded access inside the address space, every diagnostic of an
unassigned opcode) is kept by every step, in both settings of STRICT_UNHANDLED, and holds in the state a fault carries.
The recorded accesses are the model's own record (log entry 5), the diagnostics' contents the spec's decision D12. -/
def Obligations.StepKeepsTheInvariant : Prop :=
  (∀ s t, s.inv → step s = .next t → t.inv) ∧ ∀ strict s t, s.inv → handsOn (stepWith strict s) t → t.inv

/-- Every host operation keeps the model's invariant, a whole run among them (log entry 16 for the run's fuel). -/
def Obligations.HostOperationsKeepTheInvariant : Prop :=
  ∀ strict c s reply t, s.inv → hostOp strict c s = some (reply, t) → t.inv

/-- 41_engine.md section 2: an instruction begins only with a budget of at least 1 and costs at most 5, so no step takes a
budget below -4, or below where it already was. Overshoot is the spec's own decision D9. -/
def Obligations.StepOvershootsToMinusFourAtMost : Prop :=
  ∀ strict s t floor, floor ≤ -4 → s.budgetAtLeast floor → handsOn (stepWith strict s) t → t.budgetAtLeast floor

/-- 41_engine.md section 2: the budget is deducted 1 per access and never increases: an iteration makes 1 to 5 accesses,
which extend the access sequence, and lowers the budget by their number. That nothing else costs is the spec's own
decision D7 (log entry 9). -/
def Obligations.EveryAccessCostsOneCycle : Prop :=
  ∀ strict (s t : State) (r : Run), s.run = some r → 0 < r.budget → handsOn (stepWith strict s) t →
    ∃ r' accesses, t.run = some r' ∧ r'.accesses = r.accesses ++ accesses ∧
      r'.budget = r.budget - (accesses.length : Int) ∧ 1 ≤ accesses.length ∧ accesses.length ≤ 5

/-! ### Whole runs -/

/-- 41_engine.md section 1: with a budget of 0 or less the loop body never runs and the state is unchanged. (The spec's own
inference.) -/
def Obligations.NonpositiveBudgetRunsNothing : Prop :=
  ∀ strict (s : State) (b0 : Int), s.runState = .idle → b0 ≤ 0 →
    s.execute strict b0 = { status := .exhausted, budget := b0, diagnostics := [], accesses := [], state := s }

/-- 41_engine.md section 4: `execute(1)` runs exactly one iteration and ends with the engine idle. (The spec's own
inference.) -/
def Obligations.ExecuteOneIsASingleStep : Prop :=
  ∀ strict (s t : State), handsOn (stepWith strict (s.startRun 1)) t → (s.execute strict 1).state = { t with run := none }

/-- 41_engine.md section 2: a run started with at least 1 cycle always ends idle; its accesses are its cycles; when it ends
exhausted the final budget is between -4 and 0; without strict mode it ends exhausted or out of range. (The spec's own
inference; overshoot is its decision D9.) -/
def Obligations.RunEndsIdleWithBoundedOvershoot : Prop :=
  ∀ strict (s : State) (b0 : Int), 1 ≤ b0 →
    let result := s.execute strict b0
    result.state.runState = .idle ∧ b0 - result.budget = (result.accesses.length : Int) ∧ 1 ≤ result.accesses.length ∧
    (result.status = .exhausted → -4 ≤ result.budget ∧ result.budget ≤ 0) ∧
    (strict = false → ∀ a op, result.status ≠ .unhandledStop a op)

/-- 41_engine.md section 4: a run that ends exhausted at budget exactly 0 and a second run after it leave what the single
run of the two budgets leaves, its outputs joined. (The spec's own inference, stated for a second budget that is not
negative: with a negative one the single run's budget is smaller than the first run's.) -/
def Obligations.SplitRunEqualsSingleRun : Prop :=
  ∀ strict (s : State) (b1 b2 : Int), 0 ≤ b2 →
    let first := s.execute strict b1
    let second := first.state.execute strict b2
    let single := s.execute strict (b1 + b2)
    first.status = .exhausted → first.budget = 0 →
      single.state = second.state ∧ single.status = second.status ∧ single.budget = second.budget ∧
      single.diagnostics = first.diagnostics ++ second.diagnostics ∧ single.accesses = first.accesses ++ second.accesses

/-- 41_engine.md section 1: `execute` is the repetition of the machine's step. The outputs of an exhausted run of budget
`b0` are those of the state that at most `b0` steps reach, and one more step ends the run there; a run that ends out of
range is a repetition of steps that ends in that fault. That ending is the model's own form (log entries 1 and 6). -/
def Obligations.ExecuteRepeatsTheStep : Prop :=
  ∀ (s : State) (b0 : Int),
    let result := s.execute false b0
    (result.status = .exhausted →
      ∃ k u, k ≤ b0.toNat ∧ Host.Core.run core k (s.startRun b0) = .next u ∧
        u.run = some { budget := result.budget, diagnostics := result.diagnostics, accesses := result.accesses } ∧
        step u = .next result.state) ∧
    (∀ ea, result.status = .outOfRange ea →
      ∃ k t, k ≤ b0.toNat ∧ Host.Core.run core k (s.startRun b0) = .fault (.outOfRange ea t) ∧
        t.run = some { budget := result.budget, diagnostics := result.diagnostics, accesses := result.accesses } ∧
        result.state = { t with run := none })

/-! ### The two-byte read -/

/-- 00_scope.md section 6, 20_memory.md section 2: `MemRead(a, 2)` is the byte at `a` below the byte at `a + 1`; `a + 1` is
not wrapped, so at 0xFFFF the second read fails with OutOfRange(65536), and from 65536 on the first one fails. At a
zero-page pointer it is the word the engine's pointer read gives. That `a + 1` is not wrapped is the spec's own decision
D15, the order of the two reads D6 (log entries 10 and 23). -/
def Obligations.TwoByteReadIsLittleEndianUnwrapped : Prop :=
  ∀ (s : State),
    (∀ a, a < 65535 →
      ∃ w, s.memRead16 a = .ok w ∧ w.toNat = (s.mem.readByte (a + 1)).toNat * 256 + (s.mem.readByte a).toNat) ∧
    s.memRead16 65535 = .error 65536 ∧
    (∀ a, 65536 ≤ a → s.memRead16 a = .error a) ∧
    ∀ p : Byte, s.memRead16 p.toNat = .ok (s.readPtr16 p).1

end
end

