-- ==== Sys2Proof/Laws/Decode.lean ====
section
/-! SUPPORT. The laws of words, of the opcode lookup and of the descriptors: a word is its two bytes, a byte is looked up
by its whole value, and what a lookup finds makes instructions of exactly that opcode (30_encoding.md R92 to R94). -/

namespace Sys2Proof

/-- A word is assembled from its own bytes (30_encoding.md R92). -/
@[simp] theorem assembleWord_low_high (w : Word) : assembleWord (lowByte w) (highByte w) = w := by
  apply BitVec.eq_of_getLsbD_eq
  intro i hi
  simp only [assembleWord, lowByte, highByte, BitVec.getLsbD_append, BitVec.getLsbD_extractLsb']
  by_cases h : i < 8
  · simp [h]
  · have h8 : i - 8 < 8 := by omega
    have hadd : 8 + (i - 8) = i := by omega
    simp [h, h8, hadd]

@[simp] theorem lowByte_assembleWord (l h : Byte) : lowByte (assembleWord l h) = l := by
  apply BitVec.eq_of_getLsbD_eq
  intro i hi
  simp only [assembleWord, lowByte, BitVec.getLsbD_append, BitVec.getLsbD_extractLsb']
  simp [hi]

@[simp] theorem highByte_assembleWord (l h : Byte) : highByte (assembleWord l h) = h := by
  apply BitVec.eq_of_getLsbD_eq
  intro i hi
  simp only [assembleWord, highByte, BitVec.getLsbD_append, BitVec.getLsbD_extractLsb']
  simp [hi]

/-- A word as a number: its high byte times 256 plus its low byte (30_encoding.md R92). -/
theorem assembleWord_toNat (l h : Byte) : (assembleWord l h).toNat = h.toNat * 256 + l.toNat := by
  have hl := l.isLt
  simp only [assembleWord, BitVec.toNat_append, Nat.shiftLeft_eq]
  rw [← Nat.shiftLeft_eq, ← Nat.shiftLeft_add_eq_or_of_lt hl, Nat.shiftLeft_eq]

theorem highByte_toNat (w : Word) : (highByte w).toNat = w.toNat / 256 := by
  have := w.isLt
  simp [highByte, Nat.shiftRight_eq_div_pow]
  omega

theorem lowByte_toNat (w : Word) : (lowByte w).toNat = w.toNat % 256 := by
  simp [lowByte]

/-- A byte is found in the table under its own value only (30_encoding.md R94). -/
theorem lookupOpcode_eq_some {op : Byte} {shape : Shape} (h : lookupOpcode op = some shape) :
    (op, shape) ∈ opcodeTable := by
  have mem : ∀ (table : List (Byte × Shape)), table.lookup op = some shape → (op, shape) ∈ table := by
    intro table
    induction table with
    | nil => simp
    | cons row rest ih =>
      obtain ⟨k, v⟩ := row
      rw [List.lookup_cons]
      by_cases hk : (op == k) = true
      · simp only [hk, Option.some.injEq]
        rintro rfl
        simp [eq_of_beq hk]
      · simp only [hk]
        exact fun h => List.mem_cons_of_mem _ (ih h)
  exact mem _ h

/-- The table holds no opcode byte twice (30_encoding.md R91: unique key). -/
theorem opcodeTable_keys_unique : (opcodeTable.map Prod.fst).Nodup := by decide

/-- A byte is unassigned exactly when it is none of the table's keys (30_encoding.md R95). -/
theorem lookupOpcode_eq_none_iff (op : Byte) : lookupOpcode op = none ↔ op ∉ opcodeTable.map Prod.fst := by
  rw [lookupOpcode, List.lookup_eq_none_iff]
  constructor
  · intro h hm
    obtain ⟨row, hrow, rfl⟩ := List.mem_map.mp hm
    simpa using h row hrow
  · intro h row hrow
    have hne : op ≠ row.1 := fun he => h (he ▸ List.mem_map_of_mem hrow)
    simpa using hne

/-- Every instruction's descriptor is one the architecture has. -/
@[simp] theorem Instr.wellFormed_eq_true (i : Instr) : i.wellFormed = true := by cases i <;> rfl

/-- An instruction's encoding has its length (30_encoding.md R90, R96). -/
@[simp] theorem encode_length (i : Instr) : (encode i).length = i.length := by cases i <;> rfl

end Sys2Proof
end

