-- ==== Sys2Proof/Laws/Memory.lean ====
section
/-! SUPPORT. The laws of memory: a read after a write (20_memory.md R80), and that every memory operation keeps the
canonical form. The read laws need no canonical form: they hold of every list of pairs. -/

namespace Sys2Proof.Machine

theorem Memory.readByte_unlisted {m : Memory} {a : Nat} (h : ∀ cell ∈ m, cell.1 ≠ a) : Memory.readByte m a = 0 := by
  induction m with
  | nil => rfl
  | cons cell rest ih =>
    obtain ⟨k, v⟩ := cell
    have hk : k ≠ a := h (k, v) (by simp)
    simp only [Memory.readByte, if_neg hk]
    exact ih fun c hc => h c (by simp [hc])

theorem Memory.readByte_filter (m : Memory) (a b : Nat) :
    Memory.readByte (m.filter fun cell => cell.1 != a) b = if b = a then 0 else Memory.readByte m b := by
  induction m with
  | nil => simp [Memory.readByte]
  | cons cell rest ih =>
    obtain ⟨k, v⟩ := cell
    by_cases hk : k = a
    · subst hk
      have hf : ((k, v) :: rest).filter (fun cell => cell.1 != k) = rest.filter fun cell => cell.1 != k := by simp
      rw [hf, ih]
      by_cases hb : b = k
      · simp [hb]
      · simp [hb, Memory.readByte, Ne.symm hb]
    · have hf : ((k, v) :: rest).filter (fun cell => cell.1 != a) = (k, v) :: rest.filter fun cell => cell.1 != a := by
        simp [hk]
      rw [hf]
      simp only [Memory.readByte, ih]
      by_cases hb : k = b
      · subst hb; simp [hk]
      · simp [hb]

theorem Memory.readByte_place {m : Memory} {a : Nat} (v : Byte) (h : ∀ cell ∈ m, cell.1 ≠ a) (b : Nat) :
    Memory.readByte (Memory.place a v m) b = if b = a then v else Memory.readByte m b := by
  induction m with
  | nil => simp [Memory.place, Memory.readByte, eq_comm]
  | cons cell rest ih =>
    obtain ⟨k, w⟩ := cell
    have hk : k ≠ a := h (k, w) (by simp)
    have hrest := ih fun c hc => h c (by simp [hc])
    by_cases hlt : a < k
    · simp only [Memory.place, if_pos hlt, Memory.readByte]
      by_cases hb : b = a
      · simp [hb]
      · simp [hb, Ne.symm hb]
    · simp only [Memory.place, if_neg hlt, Memory.readByte, hrest]
      by_cases hb : b = a
      · subst hb; simp [hk]
      · simp [hb]

/-- A read after a write: the byte written at its address, every other byte as before. -/
@[simp] theorem Memory.readByte_writeByte (m : Memory) (a b : Nat) (v : Byte) :
    (m.writeByte a v).readByte b = if b = a then v else m.readByte b := by
  simp only [Memory.writeByte]
  by_cases hv : v = 0
  · simp only [hv, if_true, Memory.readByte_filter]
  · rw [if_neg hv, Memory.readByte_place v (by simp), Memory.readByte_filter]
    by_cases hb : b = a <;> simp [hb]

@[simp] theorem Memory.readByte_nil (a : Nat) : Memory.readByte [] a = 0 := rfl

theorem Memory.wf_cons {a : Nat} {v : Byte} {rest : Memory} :
    Memory.wf ((a, v) :: rest) = true ↔
      a < 65536 ∧ v ≠ 0 ∧ (∀ cell ∈ rest, a < cell.1) ∧ Memory.wf rest = true := by
  simp only [Memory.wf, Config.capacity, Bool.and_eq_true, decide_eq_true_eq, List.all_eq_true, and_assoc]
  exact and_congr decide_eq_true_iff Iff.rfl

theorem Memory.wf_filter {m : Memory} (p : Host.Cell → Bool) (h : m.wf = true) : Memory.wf (m.filter p) = true := by
  induction m with
  | nil => rfl
  | cons cell rest ih =>
    obtain ⟨a, v⟩ := cell
    obtain ⟨ha, hv, hlt, hrest⟩ := Memory.wf_cons.mp h
    by_cases hp : p (a, v) = true
    · rw [List.filter_cons_of_pos hp]
      exact Memory.wf_cons.mpr ⟨ha, hv, fun c hc => hlt c (List.mem_of_mem_filter hc), ih hrest⟩
    · rw [List.filter_cons_of_neg hp]
      exact ih hrest

theorem Memory.mem_place {m : Memory} {a : Nat} {v : Byte} {cell : Host.Cell} (h : cell ∈ Memory.place a v m) :
    cell = (a, v) ∨ cell ∈ m := by
  induction m with
  | nil => exact .inl (by simpa [Memory.place] using h)
  | cons head rest ih =>
    obtain ⟨k, w⟩ := head
    by_cases hlt : a < k
    · simpa [Memory.place, hlt] using h
    · simp only [Memory.place, if_neg hlt, List.mem_cons] at h ⊢
      rcases h with h | h
      · exact .inr (.inl h)
      · exact (ih h).imp id .inr

theorem Memory.wf_place {m : Memory} {a : Nat} {v : Byte} (ha : a < 65536) (hv : v ≠ 0)
    (hnot : ∀ cell ∈ m, cell.1 ≠ a) (h : m.wf = true) : Memory.wf (Memory.place a v m) = true := by
  induction m with
  | nil => exact Memory.wf_cons.mpr ⟨ha, hv, by simp, rfl⟩
  | cons head rest ih =>
    obtain ⟨k, w⟩ := head
    obtain ⟨hk, hw, hlt, hrest⟩ := Memory.wf_cons.mp h
    have hka : k ≠ a := hnot (k, w) (by simp)
    by_cases hak : a < k
    · rw [show Memory.place a v ((k, w) :: rest) = (a, v) :: (k, w) :: rest by simp [Memory.place, hak]]
      refine Memory.wf_cons.mpr ⟨ha, hv, fun c hc => ?_, h⟩
      rcases List.mem_cons.mp hc with hc | hc
      · simpa [hc] using hak
      · exact lt_trans hak (hlt c hc)
    · rw [show Memory.place a v ((k, w) :: rest) = (k, w) :: Memory.place a v rest by simp [Memory.place, hak]]
      refine Memory.wf_cons.mpr ⟨hk, hw, fun c hc => ?_, ih (fun c hc => hnot c (by simp [hc])) hrest⟩
      rcases Memory.mem_place hc with hc | hc
      · rw [hc]; omega
      · exact hlt c hc

/-- A write inside the address space keeps the canonical form. -/
theorem Memory.wf_writeByte {m : Memory} {a : Nat} (v : Byte) (ha : a < 65536) (h : m.wf = true) :
    (m.writeByte a v).wf = true := by
  have hf := Memory.wf_filter (fun cell => cell.1 != a) h
  simp only [Memory.writeByte]
  by_cases hv : v = 0
  · rw [if_pos hv]; exact hf
  · rw [if_neg hv]; exact Memory.wf_place ha hv (by simp) hf

/-- The empty memory, which reset and reinitialize leave, is in canonical form. -/
theorem Memory.wf_nil : Memory.wf [] = true := rfl

/-- The AddressSpace write keeps the canonical form. -/
theorem State.memWrite_wf {s t : State} {a : Nat} {v : Byte} (h : s.mem.wf = true) (hw : s.memWrite a v = some t) :
    t.mem.wf = true := by
  by_cases ha : a < 65536
  · have ht : { s with mem := s.mem.writeByte a v } = t := by simpa [State.memWrite, Config.capacity, ha] using hw
    exact ht ▸ Memory.wf_writeByte v ha h
  · simp [State.memWrite, Config.capacity, ha] at hw

/-- The charged write keeps the canonical form. -/
theorem State.write8_wf {s t : State} {a : Nat} {v : Byte} (h : s.mem.wf = true) (hw : s.write8 a v = some t) :
    t.mem.wf = true := by
  cases hm : s.memWrite a v with
  | none => simp [State.write8, hm] at hw
  | some u =>
    have ht : u.charge ⟨.dataWrite, a, v⟩ = t := by simpa [State.write8, hm] using hw
    exact ht ▸ (State.memWrite_wf h hm : u.mem.wf = true)

/-- Placing bytes keeps the canonical form. -/
theorem State.placeBytes_wf {s : State} (bytes : List Byte) (a : Word) (h : s.mem.wf = true) :
    (s.placeBytes a bytes).mem.wf = true := by
  induction bytes generalizing s a with
  | nil => exact h
  | cons v rest ih => exact ih (s := { s with mem := s.mem.writeByte a.toNat v }) (a + 1) (Memory.wf_writeByte v a.isLt h)

theorem State.reinitialize_wf (s : State) : s.reinitialize.mem.wf = true := Memory.wf_nil

theorem State.reset_wf : State.reset.mem.wf = true := Memory.wf_nil

/-- Two memories in canonical form that read the same at every address are the same data. -/
theorem Memory.eq_of_readByte_eq {m m' : Memory} (h : m.wf = true) (h' : m'.wf = true)
    (heq : ∀ a, m.readByte a = m'.readByte a) : m = m' := by
  induction m generalizing m' with
  | nil =>
    cases m' with
    | nil => rfl
    | cons cell rest =>
      obtain ⟨k, v⟩ := cell
      have := heq k
      simp [Memory.readByte] at this
      exact absurd this.symm (Memory.wf_cons.mp h').2.1
  | cons cell rest ih =>
    obtain ⟨k, v⟩ := cell
    obtain ⟨hk, hv, hlt, hrest⟩ := Memory.wf_cons.mp h
    cases m' with
    | nil =>
      have := heq k
      simp [Memory.readByte] at this
      exact absurd this hv
    | cons cell' rest' =>
      obtain ⟨k', v'⟩ := cell'
      obtain ⟨hk', hv', hlt', hrest'⟩ := Memory.wf_cons.mp h'
      have hread (a : Nat) (t : Memory) (ht : ∀ c ∈ t, a < c.1) : Memory.readByte t a = 0 :=
        Memory.readByte_unlisted fun c hc => (ht c hc).ne'
      have hkk : k = k' := by
        rcases lt_trichotomy k k' with hlt2 | heq2 | hgt
        · have := heq k
          simp only [Memory.readByte, if_true] at this
          rw [if_neg (by omega), hread k rest' fun c hc => lt_trans hlt2 (hlt' c hc)] at this
          exact absurd this hv
        · exact heq2
        · have := heq k'
          simp only [Memory.readByte, if_true] at this
          rw [if_neg (by omega), hread k' rest fun c hc => lt_trans hgt (hlt c hc)] at this
          exact absurd this.symm hv'
      subst hkk
      have hvv : v = v' := by simpa [Memory.readByte] using heq k
      subst hvv
      rw [ih hrest hrest' fun a => ?_]
      by_cases ha : k = a
      · subst ha; rw [hread k rest hlt, hread k rest' hlt']
      · simpa [Memory.readByte, ha] using heq a

end Sys2Proof.Machine
end

