-- ==== Sys2Proof/Laws/State.lean ====
section
/-! SUPPORT. One lemma per field per update of State: what each operation does to each field. -/

namespace Sys2Proof.Machine

variable (s : State)

@[simp] theorem State.charge_a (access : Access) : (s.charge access).a = s.a := rfl
@[simp] theorem State.charge_x (access : Access) : (s.charge access).x = s.x := rfl
@[simp] theorem State.charge_y (access : Access) : (s.charge access).y = s.y := rfl
@[simp] theorem State.charge_pc (access : Access) : (s.charge access).pc = s.pc := rfl
@[simp] theorem State.charge_sp (access : Access) : (s.charge access).sp = s.sp := rfl
@[simp] theorem State.charge_flags (access : Access) : (s.charge access).flags = s.flags := rfl
@[simp] theorem State.charge_mem (access : Access) : (s.charge access).mem = s.mem := rfl
@[simp] theorem State.charge_run (access : Access) : (s.charge access).run = s.run.map fun r => r.charge access := rfl

@[simp] theorem State.emit_a (d : Diagnostic) : (s.emit d).a = s.a := rfl
@[simp] theorem State.emit_x (d : Diagnostic) : (s.emit d).x = s.x := rfl
@[simp] theorem State.emit_y (d : Diagnostic) : (s.emit d).y = s.y := rfl
@[simp] theorem State.emit_pc (d : Diagnostic) : (s.emit d).pc = s.pc := rfl
@[simp] theorem State.emit_sp (d : Diagnostic) : (s.emit d).sp = s.sp := rfl
@[simp] theorem State.emit_flags (d : Diagnostic) : (s.emit d).flags = s.flags := rfl
@[simp] theorem State.emit_mem (d : Diagnostic) : (s.emit d).mem = s.mem := rfl
@[simp] theorem State.emit_run (d : Diagnostic) : (s.emit d).run = s.run.map fun r => { r with diagnostics := r.diagnostics ++ [d] } := rfl

@[simp] theorem State.startRun_a (b0 : Int) : (s.startRun b0).a = s.a := rfl
@[simp] theorem State.startRun_x (b0 : Int) : (s.startRun b0).x = s.x := rfl
@[simp] theorem State.startRun_y (b0 : Int) : (s.startRun b0).y = s.y := rfl
@[simp] theorem State.startRun_pc (b0 : Int) : (s.startRun b0).pc = s.pc := rfl
@[simp] theorem State.startRun_sp (b0 : Int) : (s.startRun b0).sp = s.sp := rfl
@[simp] theorem State.startRun_flags (b0 : Int) : (s.startRun b0).flags = s.flags := rfl
@[simp] theorem State.startRun_mem (b0 : Int) : (s.startRun b0).mem = s.mem := rfl
@[simp] theorem State.startRun_run (b0 : Int) : (s.startRun b0).run = some { budget := b0, diagnostics := [], accesses := [] } := rfl

@[simp] theorem State.endRun_a : (s.endRun).a = s.a := rfl
@[simp] theorem State.endRun_x : (s.endRun).x = s.x := rfl
@[simp] theorem State.endRun_y : (s.endRun).y = s.y := rfl
@[simp] theorem State.endRun_pc : (s.endRun).pc = s.pc := rfl
@[simp] theorem State.endRun_sp : (s.endRun).sp = s.sp := rfl
@[simp] theorem State.endRun_flags : (s.endRun).flags = s.flags := rfl
@[simp] theorem State.endRun_mem : (s.endRun).mem = s.mem := rfl
@[simp] theorem State.endRun_run : (s.endRun).run = none := rfl

@[simp] theorem State.reinitialize_a : (s.reinitialize).a = s.a := rfl
@[simp] theorem State.reinitialize_x : (s.reinitialize).x = s.x := rfl
@[simp] theorem State.reinitialize_y : (s.reinitialize).y = s.y := rfl
@[simp] theorem State.reinitialize_pc : (s.reinitialize).pc = s.pc := rfl
@[simp] theorem State.reinitialize_sp : (s.reinitialize).sp = s.sp := rfl
@[simp] theorem State.reinitialize_flags : (s.reinitialize).flags = s.flags := rfl
@[simp] theorem State.reinitialize_mem : (s.reinitialize).mem = [] := rfl
@[simp] theorem State.reinitialize_run : (s.reinitialize).run = s.run := rfl

@[simp] theorem State.deriveZN_a (v : Byte) : (s.deriveZN v).a = s.a := rfl
@[simp] theorem State.deriveZN_x (v : Byte) : (s.deriveZN v).x = s.x := rfl
@[simp] theorem State.deriveZN_y (v : Byte) : (s.deriveZN v).y = s.y := rfl
@[simp] theorem State.deriveZN_pc (v : Byte) : (s.deriveZN v).pc = s.pc := rfl
@[simp] theorem State.deriveZN_sp (v : Byte) : (s.deriveZN v).sp = s.sp := rfl
@[simp] theorem State.deriveZN_flags (v : Byte) : (s.deriveZN v).flags = s.flags.deriveZN v := rfl
@[simp] theorem State.deriveZN_mem (v : Byte) : (s.deriveZN v).mem = s.mem := rfl
@[simp] theorem State.deriveZN_run (v : Byte) : (s.deriveZN v).run = s.run := rfl

@[simp] theorem State.setStatus_a (b : Byte) : (s.setStatus b).a = s.a := rfl
@[simp] theorem State.setStatus_x (b : Byte) : (s.setStatus b).x = s.x := rfl
@[simp] theorem State.setStatus_y (b : Byte) : (s.setStatus b).y = s.y := rfl
@[simp] theorem State.setStatus_pc (b : Byte) : (s.setStatus b).pc = s.pc := rfl
@[simp] theorem State.setStatus_sp (b : Byte) : (s.setStatus b).sp = s.sp := rfl
@[simp] theorem State.setStatus_flags (b : Byte) : (s.setStatus b).flags = Flags.unpack b := rfl
@[simp] theorem State.setStatus_mem (b : Byte) : (s.setStatus b).mem = s.mem := rfl
@[simp] theorem State.setStatus_run (b : Byte) : (s.setStatus b).run = s.run := rfl

@[simp] theorem State.fetch8_a : (s.fetch8.2).a = s.a := rfl
@[simp] theorem State.fetch8_x : (s.fetch8.2).x = s.x := rfl
@[simp] theorem State.fetch8_y : (s.fetch8.2).y = s.y := rfl
@[simp] theorem State.fetch8_pc : (s.fetch8.2).pc = s.pc + 1 := rfl
@[simp] theorem State.fetch8_sp : (s.fetch8.2).sp = s.sp := rfl
@[simp] theorem State.fetch8_flags : (s.fetch8.2).flags = s.flags := rfl
@[simp] theorem State.fetch8_mem : (s.fetch8.2).mem = s.mem := rfl
@[simp] theorem State.fetch8_run : (s.fetch8.2).run = s.run.map fun r => r.charge ⟨.fetch, s.pc.toNat, s.byteAt s.pc⟩ := rfl

@[simp] theorem State.pushHalf_a (v : Byte) : (s.pushHalf v).a = s.a := rfl
@[simp] theorem State.pushHalf_x (v : Byte) : (s.pushHalf v).x = s.x := rfl
@[simp] theorem State.pushHalf_y (v : Byte) : (s.pushHalf v).y = s.y := rfl
@[simp] theorem State.pushHalf_pc (v : Byte) : (s.pushHalf v).pc = s.pc := rfl
@[simp] theorem State.pushHalf_sp (v : Byte) : (s.pushHalf v).sp = s.sp - 1 := rfl
@[simp] theorem State.pushHalf_flags (v : Byte) : (s.pushHalf v).flags = s.flags := rfl
@[simp] theorem State.pushHalf_mem (v : Byte) : (s.pushHalf v).mem = s.mem.writeByte s.stackAddr.toNat v := rfl
@[simp] theorem State.pushHalf_run (v : Byte) : (s.pushHalf v).run = s.run.map fun r => r.charge ⟨.dataWrite, s.stackAddr.toNat, v⟩ := rfl

@[simp] theorem State.afterAccesses_a (n : Nat) (further : List Access) : (s.afterAccesses n further).a = s.a := rfl
@[simp] theorem State.afterAccesses_x (n : Nat) (further : List Access) : (s.afterAccesses n further).x = s.x := rfl
@[simp] theorem State.afterAccesses_y (n : Nat) (further : List Access) : (s.afterAccesses n further).y = s.y := rfl
@[simp] theorem State.afterAccesses_pc (n : Nat) (further : List Access) : (s.afterAccesses n further).pc = s.pc + BitVec.ofNat 16 n := rfl
@[simp] theorem State.afterAccesses_sp (n : Nat) (further : List Access) : (s.afterAccesses n further).sp = s.sp := rfl
@[simp] theorem State.afterAccesses_flags (n : Nat) (further : List Access) : (s.afterAccesses n further).flags = s.flags := rfl
@[simp] theorem State.afterAccesses_mem (n : Nat) (further : List Access) : (s.afterAccesses n further).mem = s.mem := rfl
@[simp] theorem State.afterAccesses_run (n : Nat) (further : List Access) : (s.afterAccesses n further).run = s.run.map fun r =>
      { r with
        budget := r.budget - (fetchesAt s s.pc n ++ further).length
        accesses := r.accesses ++ (fetchesAt s s.pc n ++ further) } := rfl

@[simp] theorem State.setReg_pc (r : Reg) (v : Byte) : (s.setReg r v).pc = s.pc := by cases r <;> rfl
@[simp] theorem State.setReg_sp (r : Reg) (v : Byte) : (s.setReg r v).sp = s.sp := by cases r <;> rfl
@[simp] theorem State.setReg_flags (r : Reg) (v : Byte) : (s.setReg r v).flags = s.flags := by cases r <;> rfl
@[simp] theorem State.setReg_mem (r : Reg) (v : Byte) : (s.setReg r v).mem = s.mem := by cases r <;> rfl
@[simp] theorem State.setReg_run (r : Reg) (v : Byte) : (s.setReg r v).run = s.run := by cases r <;> rfl

@[simp] theorem State.getReg_setReg_same (r : Reg) (v : Byte) : (s.setReg r v).getReg r = v := by cases r <;> rfl

@[simp] theorem State.getReg_setReg_ne (r r' : Reg) (v : Byte) (h : r' ≠ r) :
    (s.setReg r v).getReg r' = s.getReg r' := by
  cases r <;> cases r' <;> first | rfl | exact absurd rfl h

@[simp] theorem State.getReg_afterAccesses (r : Reg) (n : Nat) (further : List Access) :
    (s.afterAccesses n further).getReg r = s.getReg r := by cases r <;> rfl

@[simp] theorem State.byteAt_charge (access : Access) (a : Word) : (s.charge access).byteAt a = s.byteAt a := rfl

@[simp] theorem State.byteAt_fetch8 (a : Word) : s.fetch8.2.byteAt a = s.byteAt a := rfl

@[simp] theorem State.byteAt_afterAccesses (n : Nat) (further : List Access) (a : Word) :
    (s.afterAccesses n further).byteAt a = s.byteAt a := rfl

@[simp] theorem State.fetch8_byte : s.fetch8.1 = s.byteAt s.pc := rfl

theorem State.runState_idle_iff : s.runState = .idle ↔ s.run = none := by
  unfold State.runState
  cases s.run <;> simp

theorem State.runState_running_iff : s.runState = .running ↔ ∃ r, s.run = some r := by
  unfold State.runState
  cases s.run <;> simp

end Sys2Proof.Machine
end

