-- ==== Sys2Proof/Laws/Accesses.lean ====
section
/-! SUPPORT. What each charged access primitive and each resolver does, once: their effect in the terms of
`State.afterAccesses`, which later proofs cite instead of unfolding them (20_memory.md R75 to R79, 40_addressing_modes.md
R110 to R119). -/

namespace Sys2Proof.Machine

/-- The AddressSpace read below the capacity (20_memory.md R61). -/
theorem State.memRead_of_lt (s : State) {a : Nat} (h : a < 65536) : s.memRead a = some (s.mem.readByte a) := if_pos h

/-- The AddressSpace read at and beyond the capacity (20_memory.md R61, R64). -/
theorem State.memRead_of_ge (s : State) {a : Nat} (h : 65536 ≤ a) : s.memRead a = none := if_neg (Nat.not_lt.mpr h)

/-- An access charged after others joins them. -/
theorem State.charge_afterAccesses (s : State) (n : Nat) (further : List Access) (access : Access) :
    (s.afterAccesses n further).charge access = s.afterAccesses n (further ++ [access]) := by
  simp only [State.charge, State.afterAccesses, Option.map_map]
  congr 1
  cases s.run with
  | none => rfl
  | some r =>
    simp [Run.charge, Config.accessCost]
    omega

/-- The first fetch of an iteration (20_memory.md R75). -/
theorem State.fetch8_eq (s : State) : s.fetch8.2 = s.afterAccesses 1 [] := rfl

/-- A further fetch of an iteration (20_memory.md R75). -/
theorem State.fetch8_afterAccesses_one (s : State) : (s.afterAccesses 1 []).fetch8.2 = s.afterAccesses 2 [] := by
  simp only [State.fetch8, State.charge, State.afterAccesses, Option.map_map, State.byteAt]
  congr 1
  · rw [BitVec.add_assoc]; rfl
  · cases s.run with
    | none => rfl
    | some r =>
      simp [Run.charge, Config.accessCost, fetchesAt, State.byteAt]
      omega

/-- The two fetches of an operand word (20_memory.md R76). -/
theorem State.fetch16_afterAccesses_one (s : State) : (s.afterAccesses 1 []).fetch16.2 = s.afterAccesses 3 [] := by
  have h : (s.afterAccesses 1 []).fetch16.2 = (s.afterAccesses 1 []).fetch8.2.fetch8.2 := rfl
  rw [h, State.fetch8_afterAccesses_one]
  simp only [State.fetch8, State.charge, State.afterAccesses, Option.map_map, State.byteAt]
  congr 1
  · rw [BitVec.add_assoc]; rfl
  · cases s.run with
    | none => rfl
    | some r =>
      simp [Run.charge, Config.accessCost, fetchesAt, State.byteAt, BitVec.add_assoc]
      omega

/-- The read of a pointer (20_memory.md R78): the word at it, and its two bytes charged. -/
theorem State.readPtr16_afterAccesses (s : State) (n : Nat) (p : Byte) :
    (s.afterAccesses n []).readPtr16 p =
      (s.pointerWord p, s.afterAccesses n (pointerReads s (p.setWidth 16))) := by
  simp only [State.readPtr16, State.readPointer8, State.pointerWord, State.byteAt_afterAccesses,
    State.charge_afterAccesses, List.nil_append, List.cons_append]
  rfl

/-- The data read (20_memory.md R77): none out of range, and otherwise the byte, charged. -/
theorem State.read8_afterAccesses (s : State) (n : Nat) (further : List Access) (ea : Nat) :
    (s.afterAccesses n further).read8 ea =
      if ea < 65536 then
        some (s.mem.readByte ea, s.afterAccesses n (further ++ [⟨.dataRead, ea, s.mem.readByte ea⟩]))
      else none := by
  by_cases h : ea < 65536
  · simp [State.read8, State.memRead, Config.capacity, h, State.charge_afterAccesses]
  · simp [State.read8, State.memRead, Config.capacity, h]

/-- The data write (20_memory.md R79): none out of range, and otherwise the byte stored and charged. -/
theorem State.write8_afterAccesses (s : State) (n : Nat) (further : List Access) (ea : Nat) (v : Byte) :
    (s.afterAccesses n further).write8 ea v = if ea < 65536 then some (s.afterStore ea v n further) else none := by
  by_cases h : ea < 65536
  · simp only [State.write8, State.memWrite, Config.capacity, h, if_true, State.afterStore,
      ← State.charge_afterAccesses]
    rfl
  · simp [State.write8, State.memWrite, Config.capacity, h]

/-- Half of a push keeps the canonical form (44_stack.md R192). -/
theorem State.pushHalf_wf {s : State} (v : Byte) (h : s.mem.wf = true) : (s.pushHalf v).mem.wf = true :=
  Memory.wf_writeByte v s.stackAddr.isLt h

theorem State.pushWord_wf {s : State} (w : Word) (h : s.mem.wf = true) : (s.pushWord w).mem.wf = true :=
  State.pushHalf_wf _ (State.pushHalf_wf _ h)

/-! Each resolver after the opcode fetch: its effective address is that of the state the iteration starts in, and what it
does to the state is its fetches and its pointer reads. -/

theorem resolveImm_eq (b : Byte) (s : State) : resolveImm b s.fetch8.2 = (b, s.afterAccesses 2 []) :=
  congrArg (Prod.mk b) s.fetch8_afterAccesses_one

theorem resolveZp_eq (b : Byte) (s : State) :
    resolveZp b s.fetch8.2 = ((resolveZp b s).1, s.afterAccesses 2 []) :=
  congrArg (Prod.mk _) s.fetch8_afterAccesses_one

theorem resolveZpx_eq (b : Byte) (s : State) :
    resolveZpx b s.fetch8.2 = ((resolveZpx b s).1, s.afterAccesses 2 []) :=
  congrArg (Prod.mk _) s.fetch8_afterAccesses_one

theorem resolveZpy_eq (b : Byte) (s : State) :
    resolveZpy b s.fetch8.2 = ((resolveZpy b s).1, s.afterAccesses 2 []) :=
  congrArg (Prod.mk _) s.fetch8_afterAccesses_one

theorem resolveAbs_eq (w : Word) (s : State) :
    resolveAbs w s.fetch8.2 = ((resolveAbs w s).1, s.afterAccesses 3 []) :=
  congrArg (Prod.mk _) s.fetch16_afterAccesses_one

theorem resolveAbsx_eq (w : Word) (s : State) :
    resolveAbsx w s.fetch8.2 = ((resolveAbsx w s).1, s.afterAccesses 3 []) :=
  congrArg (Prod.mk _) s.fetch16_afterAccesses_one

theorem resolveAbsy_eq (w : Word) (s : State) :
    resolveAbsy w s.fetch8.2 = ((resolveAbsy w s).1, s.afterAccesses 3 []) :=
  congrArg (Prod.mk _) s.fetch16_afterAccesses_one

theorem resolveIndx_eq (b : Byte) (s : State) :
    resolveIndx b s.fetch8.2 =
      ((resolveIndx b s).1, s.afterAccesses 2 (pointerReads s ((zeroPageSum b s.x).setWidth 16))) := by
  have h : s.fetch8.2.fetch8.2 = s.afterAccesses 2 [] := s.fetch8_afterAccesses_one
  simp only [resolveIndx, h, State.readPtr16_afterAccesses]
  rfl

theorem resolveIndy_eq (b : Byte) (s : State) :
    resolveIndy b s.fetch8.2 = ((resolveIndy b s).1, s.afterAccesses 2 (pointerReads s (b.setWidth 16))) := by
  have h : s.fetch8.2.fetch8.2 = s.afterAccesses 2 [] := s.fetch8_afterAccesses_one
  simp only [resolveIndy, h, State.readPtr16_afterAccesses]
  rfl

/-- The load action on a value, after an instruction's accesses (42_load.md R150). -/
theorem performLoadValue_eq (s : State) (r : Reg) (v : Byte) (n : Nat) (further : List Access) :
    performLoadValue r (v, s.afterAccesses n further) = .next (s.afterLoad r v n further) := rfl

/-- The load action on an address, after an instruction's accesses: everything it can do (42_load.md R150, 41_engine.md
R142). -/
theorem performLoad_eq (s : State) (r : Reg) (ea n : Nat) (further : List Access) :
    performLoad r (ea, s.afterAccesses n further) =
      if ea < 65536 then .next (s.afterLoadFrom r ea n further)
      else .fault (.outOfRange ea (s.afterAccesses n further)) := by
  by_cases h : ea < 65536
  · simp only [performLoad, State.read8_afterAccesses, h, if_true, performLoadValue_eq, State.afterLoadFrom]
  · simp only [performLoad, State.read8_afterAccesses, h, if_false, raiseOutOfRange]

/-- The store action, after an instruction's accesses: everything it can do (43_store.md R170, 41_engine.md R142). -/
theorem performStore_eq (s : State) (r : Reg) (ea n : Nat) (further : List Access) :
    performStore r (ea, s.afterAccesses n further) =
      if ea < 65536 then .next (s.afterStore ea (s.getReg r) n further)
      else .fault (.outOfRange ea (s.afterAccesses n further)) := by
  by_cases h : ea < 65536
  · simp only [performStore, State.write8_afterAccesses, h, if_true, State.getReg_afterAccesses]
  · simp only [performStore, State.write8_afterAccesses, h, if_false, raiseOutOfRange]

/-- The 8-bit sum as a number (40_addressing_modes.md R123). -/
theorem zeroPageSum_toNat (b index : Byte) : (zeroPageSum b index).toNat = (b.toNat + index.toNat) % 256 := by
  simp [zeroPageSum]

/-- The first byte of a zero-page pointer is the byte at its own address (20_memory.md R78). -/
theorem State.byteAt_pointer (s : State) (p : Byte) : s.byteAt (p.setWidth 16) = s.mem.readByte p.toNat := by
  have h : p.toNat % 65536 = p.toNat := Nat.mod_eq_of_lt (lt_trans p.isLt (by decide))
  simp [State.byteAt, h]

/-- The second byte of a zero-page pointer is at the next address, which is 0x0100 for the pointer 0xFF (20_memory.md R78). -/
theorem State.byteAt_pointer_succ (s : State) (p : Byte) : s.byteAt (p.setWidth 16 + 1) = s.mem.readByte (p.toNat + 1) := by
  have h : (p.toNat + 1) % 65536 = p.toNat + 1 := Nat.mod_eq_of_lt (by have := p.isLt; omega)
  simp [State.byteAt, h]

/-- The word at a pointer as a number (20_memory.md R78). -/
theorem State.pointerWord_toNat (s : State) (p : Byte) : (s.pointerWord p).toNat = s.wordAt p.toNat := by
  simp only [State.pointerWord, s.byteAt_pointer, s.byteAt_pointer_succ, assembleWord_toNat, State.wordAt]

/-- Only the modes ABSX, ABSY and INDY can give an address outside the AddressSpace (40_addressing_modes.md R120). -/
theorem effectiveAddress_lt {i : Instr} {s : State} {ea : Nat} (h : effectiveAddress s i = some ea)
    (hmode : i.entry.mode ∉ [.absx, .absy, .indy]) : ea < 65536 := by
  have byte_lt (b : Byte) : b.toNat < 65536 := lt_trans b.isLt (by decide)
  have word_lt (w : Word) : w.toNat < 65536 := w.isLt
  cases i with
  | ldaImm | ldxImm | ldyImm => simp [effectiveAddress] at h
  | ldaAbsx | ldaAbsy | ldaIndy | ldxAbsy | ldyAbsx | staAbsx | staAbsy | staIndy =>
    exact absurd (by simp [Instr.entry]) hmode
  | ldaZp | ldaZpx | ldxZp | ldxZpy | ldyZp | ldyZpx | staZp | staZpx | stxZp | stxZpy | styZp | styZpx =>
    exact Option.some.inj h ▸ byte_lt _
  | ldaAbs | ldxAbs | ldyAbs | staAbs | stxAbs | styAbs | ldaIndx | staIndx => exact Option.some.inj h ▸ word_lt _

/-- The pointer accesses an instruction makes before its data access (41_engine.md R141). -/
def pointerAccesses (s : State) : Instr → List Access
  | .ldaIndx b | .staIndx b => pointerReads s ((zeroPageSum b s.x).setWidth 16)
  | .ldaIndy b | .staIndy b => pointerReads s (b.setWidth 16)
  | .ldaImm _ | .ldaZp _ | .ldaZpx _ | .ldaAbs _ | .ldaAbsx _ | .ldaAbsy _ | .ldxImm _ | .ldxZp _ | .ldxZpy _
  | .ldxAbs _ | .ldxAbsy _ | .ldyImm _ | .ldyZp _ | .ldyZpx _ | .ldyAbs _ | .ldyAbsx _ | .staZp _ | .staZpx _
  | .staAbs _ | .staAbsx _ | .staAbsy _ | .stxZp _ | .stxZpy _ | .stxAbs _ | .styZp _ | .styZpx _ | .styAbs _ => []

/-- The state in which an instruction's data access is made: its bytes fetched, its pointer read (40_addressing_modes.md
R110). -/
def State.resolved (s : State) (i : Instr) : State := s.afterAccesses i.length (pointerAccesses s i)

/-- Everything an instruction can do, in one equation: a load of the operand byte, a load from or a store to the effective
address, or OutOfRange when that is 65536 or more (41_engine.md R132, R142). -/
theorem exec_eq (i : Instr) (s : State) :
    exec i s =
      match effectiveAddress s i, i.entry.action with
      | none, _ => .next (s.afterLoad i.entry.reg (i.operandBytes.headD 0) 2 [])
      | some ea, .load =>
        if ea < 65536 then .next (s.afterLoadFrom i.entry.reg ea i.length (pointerAccesses s i))
        else .fault (.outOfRange ea (s.resolved i))
      | some ea, .store =>
        if ea < 65536 then .next (s.afterStore ea (s.getReg i.entry.reg) i.length (pointerAccesses s i))
        else .fault (.outOfRange ea (s.resolved i)) := by
  cases i
  case ldaImm b => simp only [exec, execLdaImm, resolveImm_eq, performLoadValue_eq]; rfl
  case ldaZp b => simp only [exec, execLdaZp, resolveZp_eq, performLoad_eq]; rfl
  case ldaZpx b => simp only [exec, execLdaZpx, resolveZpx_eq, performLoad_eq]; rfl
  case ldaAbs w => simp only [exec, execLdaAbs, resolveAbs_eq, performLoad_eq]; rfl
  case ldaAbsx w => simp only [exec, execLdaAbsx, resolveAbsx_eq, performLoad_eq]; rfl
  case ldaAbsy w => simp only [exec, execLdaAbsy, resolveAbsy_eq, performLoad_eq]; rfl
  case ldaIndx b => simp only [exec, execLdaIndx, resolveIndx_eq, performLoad_eq]; rfl
  case ldaIndy b => simp only [exec, execLdaIndy, resolveIndy_eq, performLoad_eq]; rfl
  case ldxImm b => simp only [exec, execLdxImm, resolveImm_eq, performLoadValue_eq]; rfl
  case ldxZp b => simp only [exec, execLdxZp, resolveZp_eq, performLoad_eq]; rfl
  case ldxZpy b => simp only [exec, execLdxZpy, resolveZpy_eq, performLoad_eq]; rfl
  case ldxAbs w => simp only [exec, execLdxAbs, resolveAbs_eq, performLoad_eq]; rfl
  case ldxAbsy w => simp only [exec, execLdxAbsy, resolveAbsy_eq, performLoad_eq]; rfl
  case ldyImm b => simp only [exec, execLdyImm, resolveImm_eq, performLoadValue_eq]; rfl
  case ldyZp b => simp only [exec, execLdyZp, resolveZp_eq, performLoad_eq]; rfl
  case ldyZpx b => simp only [exec, execLdyZpx, resolveZpx_eq, performLoad_eq]; rfl
  case ldyAbs w => simp only [exec, execLdyAbs, resolveAbs_eq, performLoad_eq]; rfl
  case ldyAbsx w => simp only [exec, execLdyAbsx, resolveAbsx_eq, performLoad_eq]; rfl
  case staZp b => simp only [exec, execStaZp, resolveZp_eq, performStore_eq]; rfl
  case staZpx b => simp only [exec, execStaZpx, resolveZpx_eq, performStore_eq]; rfl
  case staAbs w => simp only [exec, execStaAbs, resolveAbs_eq, performStore_eq]; rfl
  case staAbsx w => simp only [exec, execStaAbsx, resolveAbsx_eq, performStore_eq]; rfl
  case staAbsy w => simp only [exec, execStaAbsy, resolveAbsy_eq, performStore_eq]; rfl
  case staIndx b => simp only [exec, execStaIndx, resolveIndx_eq, performStore_eq]; rfl
  case staIndy b => simp only [exec, execStaIndy, resolveIndy_eq, performStore_eq]; rfl
  case stxZp b => simp only [exec, execStxZp, resolveZp_eq, performStore_eq]; rfl
  case stxZpy b => simp only [exec, execStxZpy, resolveZpy_eq, performStore_eq]; rfl
  case stxAbs w => simp only [exec, execStxAbs, resolveAbs_eq, performStore_eq]; rfl
  case styZp b => simp only [exec, execStyZp, resolveZp_eq, performStore_eq]; rfl
  case styZpx b => simp only [exec, execStyZpx, resolveZpx_eq, performStore_eq]; rfl
  case styAbs w => simp only [exec, execStyAbs, resolveAbs_eq, performStore_eq]; rfl

end Sys2Proof.Machine
end

