-- ==== Sys2Proof/Laws/PerInstr.lean ====
section
/-! SUPPORT. The statement made per instruction, about the instruction as syntax: its descriptor exists, its encoding has
its length, and its opcode byte is a key of the opcode table (30_encoding.md R90, R93). -/

namespace Sys2Proof.Laws.Encoding

/-- The encoding of `i` is its opcode byte and as many operand bytes as its mode fetches, and the table knows the byte. -/
def Statement (i : Instr) : Prop :=
  i.wellFormed = true ∧ (encode i).length = i.length ∧ (encode i).head? = some i.opcode ∧ (lookupOpcode i.opcode).isSome

/-- The four parts hold of any instruction whose opcode the table has. -/
theorem statement_of_lookup {i : Instr} (h : (lookupOpcode i.opcode).isSome) : Statement i :=
  ⟨i.wellFormed_eq_true, encode_length i, rfl, h⟩

theorem ldaImm (b : Byte) : Statement (.ldaImm b) := statement_of_lookup rfl
theorem ldaZp (b : Byte) : Statement (.ldaZp b) := statement_of_lookup rfl
theorem ldaZpx (b : Byte) : Statement (.ldaZpx b) := statement_of_lookup rfl
theorem ldaAbs (w : Word) : Statement (.ldaAbs w) := statement_of_lookup rfl
theorem ldaAbsx (w : Word) : Statement (.ldaAbsx w) := statement_of_lookup rfl
theorem ldaAbsy (w : Word) : Statement (.ldaAbsy w) := statement_of_lookup rfl
theorem ldaIndx (b : Byte) : Statement (.ldaIndx b) := statement_of_lookup rfl
theorem ldaIndy (b : Byte) : Statement (.ldaIndy b) := statement_of_lookup rfl
theorem ldxImm (b : Byte) : Statement (.ldxImm b) := statement_of_lookup rfl
theorem ldxZp (b : Byte) : Statement (.ldxZp b) := statement_of_lookup rfl
theorem ldxZpy (b : Byte) : Statement (.ldxZpy b) := statement_of_lookup rfl
theorem ldxAbs (w : Word) : Statement (.ldxAbs w) := statement_of_lookup rfl
theorem ldxAbsy (w : Word) : Statement (.ldxAbsy w) := statement_of_lookup rfl
theorem ldyImm (b : Byte) : Statement (.ldyImm b) := statement_of_lookup rfl
theorem ldyZp (b : Byte) : Statement (.ldyZp b) := statement_of_lookup rfl
theorem ldyZpx (b : Byte) : Statement (.ldyZpx b) := statement_of_lookup rfl
theorem ldyAbs (w : Word) : Statement (.ldyAbs w) := statement_of_lookup rfl
theorem ldyAbsx (w : Word) : Statement (.ldyAbsx w) := statement_of_lookup rfl
theorem staZp (b : Byte) : Statement (.staZp b) := statement_of_lookup rfl
theorem staZpx (b : Byte) : Statement (.staZpx b) := statement_of_lookup rfl
theorem staAbs (w : Word) : Statement (.staAbs w) := statement_of_lookup rfl
theorem staAbsx (w : Word) : Statement (.staAbsx w) := statement_of_lookup rfl
theorem staAbsy (w : Word) : Statement (.staAbsy w) := statement_of_lookup rfl
theorem staIndx (b : Byte) : Statement (.staIndx b) := statement_of_lookup rfl
theorem staIndy (b : Byte) : Statement (.staIndy b) := statement_of_lookup rfl
theorem stxZp (b : Byte) : Statement (.stxZp b) := statement_of_lookup rfl
theorem stxZpy (b : Byte) : Statement (.stxZpy b) := statement_of_lookup rfl
theorem stxAbs (w : Word) : Statement (.stxAbs w) := statement_of_lookup rfl
theorem styZp (b : Byte) : Statement (.styZp b) := statement_of_lookup rfl
theorem styZpx (b : Byte) : Statement (.styZpx b) := statement_of_lookup rfl
theorem styAbs (w : Word) : Statement (.styAbs w) := statement_of_lookup rfl

end Sys2Proof.Laws.Encoding
end

