-- ==== Sys2Proof/Laws/Step.lean ====
section
/-! SUPPORT. What a step can do, said once: the inversion lemmas of exec, of the unhandled path and of the step. Every
invariant is derived from these instead of unfolding the step (41_engine.md R131 to R134). -/

namespace Sys2Proof.Machine

/-- With an opcode byte and two more, the decoder finds an instruction or an unassigned opcode, never too few bytes. -/
theorem decode_three (op b1 b2 : Byte) :
    (∃ i rest, decode [op, b1, b2] = .instr i rest) ∨
      (lookupOpcode op = none ∧ decode [op, b1, b2] = .unassigned op) := by
  simp only [decode]
  cases h : lookupOpcode op with
  | none => exact .inr ⟨rfl, rfl⟩
  | some shape => cases shape <;> exact .inl ⟨_, _, rfl⟩

/-- Where the opcode byte is unassigned the decoder says so, and only there. -/
theorem decode_unassigned_iff (op op' : Byte) (rest : List Byte) :
    decode (op :: rest) = .unassigned op' ↔ lookupOpcode op = none ∧ op' = op := by
  simp only [decode]
  cases h : lookupOpcode op with
  | none => simp [eq_comm]
  | some shape =>
    cases shape <;> rcases rest with _ | ⟨b, _ | ⟨h', rest⟩⟩ <;> simp [decodeOperands]

/-- What the unhandled path leaves (41_engine.md R134): the fetch and the diagnostic. -/
def State.afterUnhandled (s : State) : State := (s.afterAccesses 1 []).emit ⟨s.pc, s.byteAt s.pc⟩

theorem unhandled_eq (strict : Bool) (s : State) :
    unhandled strict s =
      if strict then .fault (.unhandledStop s.pc (s.byteAt s.pc) s.afterUnhandled) else .next s.afterUnhandled := rfl

/-- The unhandled path hands on that state in both settings of STRICT_UNHANDLED. -/
theorem handsOn_unhandled (strict : Bool) (s t : State) : handsOn (unhandled strict s) t ↔ t = s.afterUnhandled := by
  rw [unhandled_eq]
  cases strict <;> simp [handsOn, eq_comm]

/-- The states an instruction can hand on: after a load, after a store, or where its data access was out of range. -/
theorem handsOn_exec {i : Instr} {s t : State} (h : handsOn (exec i s) t) :
    (∃ v, effectiveAddress s i = none ∧ i.length = 2 ∧ i.entry.mode = .imm ∧ i.entry.action = .load ∧
      i.operandBytes = [v] ∧ exec i s = .next t ∧ t = s.afterLoad i.entry.reg v 2 []) ∨
    (∃ ea, effectiveAddress s i = some ea ∧ ea < 65536 ∧ i.entry.action = .load ∧ exec i s = .next t ∧
      t = s.afterLoadFrom i.entry.reg ea i.length (pointerAccesses s i)) ∨
    (∃ ea, effectiveAddress s i = some ea ∧ ea < 65536 ∧ i.entry.action = .store ∧ exec i s = .next t ∧
      t = s.afterStore ea (s.getReg i.entry.reg) i.length (pointerAccesses s i)) ∨
    (∃ ea, effectiveAddress s i = some ea ∧ 65536 ≤ ea ∧ exec i s = .fault (.outOfRange ea t) ∧ t = s.resolved i) := by
  have heq := exec_eq i s
  cases hea : effectiveAddress s i with
  | none =>
    rw [hea] at heq
    simp only at heq
    have ht : t = s.afterLoad i.entry.reg (i.operandBytes.headD 0) 2 [] := by
      simpa [heq, handsOn, eq_comm] using h
    refine .inl ⟨i.operandBytes.headD 0, ?_⟩
    cases i <;> simp_all [effectiveAddress, Instr.length, Instr.entry, Mode.operandBytes, Instr.operandBytes]
  | some ea =>
    rw [hea] at heq
    by_cases hlt : ea < 65536
    · cases hact : i.entry.action with
      | load =>
        rw [hact] at heq
        simp only [hlt, if_true] at heq
        have ht : t = s.afterLoadFrom i.entry.reg ea i.length (pointerAccesses s i) := by
          simpa [heq, handsOn, eq_comm] using h
        exact .inr (.inl ⟨ea, rfl, hlt, rfl, ht ▸ heq, ht⟩)
      | store =>
        rw [hact] at heq
        simp only [hlt, if_true] at heq
        have ht : t = s.afterStore ea (s.getReg i.entry.reg) i.length (pointerAccesses s i) := by
          simpa [heq, handsOn, eq_comm] using h
        exact .inr (.inr (.inl ⟨ea, rfl, hlt, rfl, ht ▸ heq, ht⟩))
    · have heq' : exec i s = .fault (.outOfRange ea (s.resolved i)) := by
        rw [heq]
        cases i.entry.action <;> simp [hlt]
      have ht : t = s.resolved i := by simpa [heq', handsOn, eq_comm] using h
      exact .inr (.inr (.inr ⟨ea, rfl, Nat.le_of_not_lt hlt, ht ▸ heq', ht⟩))

/-- Every instruction hands a state on: none refuses. -/
theorem exec_hands_on (i : Instr) (s : State) : ∃ t, handsOn (exec i s) t := by
  rw [exec_eq]
  cases effectiveAddress s i with
  | none => exact ⟨_, .inl rfl⟩
  | some ea =>
    by_cases h : ea < 65536
    · cases i.entry.action <;> simp only [h, if_true] <;> exact ⟨_, .inl rfl⟩
    · cases i.entry.action <;> simp only [h, if_false] <;> exact ⟨_, .inr (.inl ⟨_, rfl⟩)⟩

/-- An iteration is the decoded instruction or the unhandled path (41_engine.md R132). -/
theorem iterate_cases (strict : Bool) (s : State) :
    (∃ i rest, decode s.codeBytes = .instr i rest ∧ iterate strict s = exec i s) ∨
      (lookupOpcode (s.byteAt s.pc) = none ∧ decode s.codeBytes = .unassigned (s.byteAt s.pc) ∧
        iterate strict s = unhandled strict s) := by
  rcases decode_three (s.byteAt s.pc) (s.byteAt (s.pc + 1)) (s.byteAt (s.pc + 2)) with ⟨i, rest, h⟩ | ⟨hl, h⟩
  · exact .inl ⟨i, rest, h, by simp only [iterate, State.codeBytes, h]⟩
  · exact .inr ⟨hl, h, by simp only [iterate, State.codeBytes, h]⟩

/-- The step of a running engine with fuel is an iteration. -/
theorem stepWith_fueled {strict : Bool} {s : State} (h : s.fueled) : stepWith strict s = iterate strict s := by
  obtain ⟨r, hr, hb⟩ := h
  simp only [stepWith, hr, hb, if_true]

/-- Everything a step can hand on: nothing changed while idle, the end of the run, an instruction's state, or the
unhandled path's. -/
theorem handsOn_stepWith {strict : Bool} {s t : State} (h : handsOn (stepWith strict s) t) :
    (s.run = none ∧ t = s) ∨ (∃ r, s.run = some r ∧ r.budget ≤ 0 ∧ t = s.endRun) ∨
    (s.fueled ∧ ∃ i rest, decode s.codeBytes = .instr i rest ∧ handsOn (exec i s) t) ∨
    (s.fueled ∧ lookupOpcode (s.byteAt s.pc) = none ∧ decode s.codeBytes = .unassigned (s.byteAt s.pc) ∧
      t = s.afterUnhandled) := by
  cases hr : s.run with
  | none =>
    refine .inl ⟨rfl, ?_⟩
    simpa [stepWith, hr, handsOn, eq_comm] using h
  | some r =>
    by_cases hb : 0 < r.budget
    · have hf : s.fueled := ⟨r, hr, hb⟩
      rw [stepWith_fueled hf] at h
      rcases iterate_cases strict s with ⟨i, rest, hd, he⟩ | ⟨hl, hd, he⟩
      · exact .inr (.inr (.inl ⟨hf, i, rest, hd, he ▸ h⟩))
      · exact .inr (.inr (.inr ⟨hf, hl, hd, (handsOn_unhandled strict s t).mp (he ▸ h)⟩))
    · refine .inr (.inl ⟨r, rfl, by omega, ?_⟩)
      simpa [stepWith, hr, hb, handsOn, eq_comm] using h

/-- A next state is a state handed on. -/
theorem handsOn_of_next {outcome : Host.Outcome State Fault Refusal} {t : State} (h : outcome = .next t) :
    handsOn outcome t := .inl h

end Sys2Proof.Machine
end

