-- ==== Sys2Proof/Laws/Runs.lean ====
section
/-! SUPPORT. The execute loop (41_engine.md R131): how one iteration unfolds it, and the induction over it packaged once. -/

namespace Sys2Proof.Machine

/-- A run in progress is its own outputs. -/
theorem State.currentRun_of_run {s : State} {r : Run} (h : s.run = some r) : s.currentRun = r := by
  simp [State.currentRun, h]

/-- A current run with a positive budget is a run in progress with fuel. -/
theorem State.fueled_iff (s : State) : s.fueled ↔ 0 < s.currentRun.budget := by
  unfold State.fueled State.currentRun
  cases s.run <;> simp

/-- Every iteration hands a state on. -/
theorem iterate_hands_on (strict : Bool) (s : State) : ∃ t, handsOn (iterate strict s) t := by
  rcases iterate_cases strict s with ⟨i, _, _, h⟩ | ⟨_, _, h⟩
  · rw [h]; exact exec_hands_on i s
  · exact ⟨_, h ▸ (handsOn_unhandled strict s _).mpr rfl⟩

/-- The loop without fuel left, or with none of its budget left. -/
theorem runLoop_stops {strict : Bool} {fuel : Nat} {s : State} (h : fuel = 0 ∨ ¬ s.fueled) :
    runLoop strict fuel s = finishRun .exhausted s := by
  cases fuel with
  | zero => rfl
  | succ n =>
    have hb : ¬ 0 < s.currentRun.budget := fun hb => (h.resolve_left (by simp)) (s.fueled_iff.mpr hb)
    simp only [runLoop, hb, if_false]

/-- One iteration of the loop: it goes on from the next state, or hands back the state the fault carries. -/
theorem runLoop_step (strict : Bool) (fuel : Nat) {s : State} (h : s.fueled) :
    (∃ t, iterate strict s = .next t ∧ runLoop strict (fuel + 1) s = runLoop strict fuel t) ∨
    (∃ ea t, iterate strict s = .fault (.outOfRange ea t) ∧
      runLoop strict (fuel + 1) s = finishRun (.outOfRange ea) t) ∨
    (∃ a op t, iterate strict s = .fault (.unhandledStop a op t) ∧
      runLoop strict (fuel + 1) s = finishRun (.unhandledStop a op) t) := by
  have hb := s.fueled_iff.mp h
  obtain ⟨t, ht | ⟨ea, ht⟩ | ⟨a, op, ht⟩⟩ := iterate_hands_on strict s
  · exact .inl ⟨t, ht, by simp only [runLoop, hb, if_true, ht]⟩
  · exact .inr (.inl ⟨ea, t, ht, by simp only [runLoop, hb, if_true, ht]⟩)
  · exact .inr (.inr ⟨a, op, t, ht, by simp only [runLoop, hb, if_true, ht]⟩)

/-- What every iteration keeps holds where the loop ends. -/
theorem runLoop_keeps {strict : Bool} {P : State → Prop}
    (keeps : ∀ s t, P s → s.fueled → handsOn (iterate strict s) t → P t) (fuel : Nat) (s : State) (h : P s) :
    ∃ status u, P u ∧ runLoop strict fuel s = finishRun status u := by
  induction fuel generalizing s with
  | zero => exact ⟨_, s, h, rfl⟩
  | succ n ih =>
    by_cases hf : s.fueled
    · rcases runLoop_step strict n hf with ⟨t, ht, hr⟩ | ⟨ea, t, ht, hr⟩ | ⟨a, op, t, ht, hr⟩
      · rw [hr]; exact ih t (keeps s t h hf (.inl ht))
      · exact ⟨_, t, keeps s t h hf (.inr (.inl ⟨ea, ht⟩)), hr⟩
      · exact ⟨_, t, keeps s t h hf (.inr (.inr ⟨a, op, ht⟩)), hr⟩
    · exact ⟨_, s, h, runLoop_stops (.inr hf)⟩

end Sys2Proof.Machine
end

