-- ==== Sys2Proof/Tests/Slice0.lean ====
section
/-! SUPPORT. The model's own tests. Expected values come from spec/95_test_vectors.md and from the encodings of
30_encoding.md, never from the model. The theorems named `witness_…` show that the hypotheses of the obligations can be
met, each clause at a boundary value. -/

namespace Sys2Proof.Tests

open Machine

/-! ### Well-formedness: each register-mode pair that does not exist is refused (30_encoding.md R93) -/

theorem test_wellFormed_refuses_store_immediate :
    Entry.valid ⟨.store, .a, .imm⟩ = false ∧ Entry.valid ⟨.store, .x, .imm⟩ = false ∧
      Entry.valid ⟨.store, .y, .imm⟩ = false := by decide

theorem test_wellFormed_refuses_a_zpy :
    Entry.valid ⟨.load, .a, .zpy⟩ = false ∧ Entry.valid ⟨.store, .a, .zpy⟩ = false := by decide

theorem test_wellFormed_refuses_x_indexed_by_x :
    Entry.valid ⟨.load, .x, .zpx⟩ = false ∧ Entry.valid ⟨.load, .x, .absx⟩ = false ∧
      Entry.valid ⟨.load, .x, .indx⟩ = false ∧ Entry.valid ⟨.load, .x, .indy⟩ = false := by decide

theorem test_wellFormed_refuses_y_indexed_by_y :
    Entry.valid ⟨.load, .y, .zpy⟩ = false ∧ Entry.valid ⟨.load, .y, .absy⟩ = false ∧
      Entry.valid ⟨.load, .y, .indx⟩ = false ∧ Entry.valid ⟨.load, .y, .indy⟩ = false := by decide

theorem test_wellFormed_refuses_stx_modes :
    Entry.valid ⟨.store, .x, .zpx⟩ = false ∧ Entry.valid ⟨.store, .x, .absx⟩ = false ∧
      Entry.valid ⟨.store, .x, .absy⟩ = false ∧ Entry.valid ⟨.store, .x, .indx⟩ = false ∧
      Entry.valid ⟨.store, .x, .indy⟩ = false := by decide

theorem test_wellFormed_refuses_sty_modes :
    Entry.valid ⟨.store, .y, .zpy⟩ = false ∧ Entry.valid ⟨.store, .y, .absx⟩ = false ∧
      Entry.valid ⟨.store, .y, .absy⟩ = false ∧ Entry.valid ⟨.store, .y, .indx⟩ = false ∧
      Entry.valid ⟨.store, .y, .indy⟩ = false := by decide

theorem test_wellFormed_accepts_an_instruction : Instr.wellFormed (.ldaIndy 0x40) = true := by decide

/-! ### Decoding: words written out from the encodings -/

/-- 30_encoding.md R92, R93; the LDA rows of spec/opcode_table.json, bit by bit. -/
theorem test_decode_lda :
    decode [0b10101001, 0b10000011] = .instr (.ldaImm 0b10000011) [] ∧
    decode [0b10100101, 0b10000011] = .instr (.ldaZp 0b10000011) [] ∧
    decode [0b10110101, 0b10000011] = .instr (.ldaZpx 0b10000011) [] ∧
    decode [0b10101101, 0b10000011, 0b01001110] = .instr (.ldaAbs 0b0100111010000011) [] ∧
    decode [0b10111101, 0b10000011, 0b01001110] = .instr (.ldaAbsx 0b0100111010000011) [] ∧
    decode [0b10111001, 0b10000011, 0b01001110] = .instr (.ldaAbsy 0b0100111010000011) [] ∧
    decode [0b10100001, 0b10000011] = .instr (.ldaIndx 0b10000011) [] ∧
    decode [0b10110001, 0b10000011] = .instr (.ldaIndy 0b10000011) [] := by decide

/-- 30_encoding.md R92, R93; the LDX rows of spec/opcode_table.json, bit by bit. -/
theorem test_decode_ldx :
    decode [0b10100010, 0b10000011] = .instr (.ldxImm 0b10000011) [] ∧
    decode [0b10100110, 0b10000011] = .instr (.ldxZp 0b10000011) [] ∧
    decode [0b10110110, 0b10000011] = .instr (.ldxZpy 0b10000011) [] ∧
    decode [0b10101110, 0b10000011, 0b01001110] = .instr (.ldxAbs 0b0100111010000011) [] ∧
    decode [0b10111110, 0b10000011, 0b01001110] = .instr (.ldxAbsy 0b0100111010000011) [] := by decide

/-- 30_encoding.md R92, R93; the LDY rows of spec/opcode_table.json, bit by bit. -/
theorem test_decode_ldy :
    decode [0b10100000, 0b10000011] = .instr (.ldyImm 0b10000011) [] ∧
    decode [0b10100100, 0b10000011] = .instr (.ldyZp 0b10000011) [] ∧
    decode [0b10110100, 0b10000011] = .instr (.ldyZpx 0b10000011) [] ∧
    decode [0b10101100, 0b10000011, 0b01001110] = .instr (.ldyAbs 0b0100111010000011) [] ∧
    decode [0b10111100, 0b10000011, 0b01001110] = .instr (.ldyAbsx 0b0100111010000011) [] := by decide

/-- 30_encoding.md R92, R93; the STA rows of spec/opcode_table.json, bit by bit. -/
theorem test_decode_sta :
    decode [0b10000101, 0b10000011] = .instr (.staZp 0b10000011) [] ∧
    decode [0b10010101, 0b10000011] = .instr (.staZpx 0b10000011) [] ∧
    decode [0b10001101, 0b10000011, 0b01001110] = .instr (.staAbs 0b0100111010000011) [] ∧
    decode [0b10011101, 0b10000011, 0b01001110] = .instr (.staAbsx 0b0100111010000011) [] ∧
    decode [0b10011001, 0b10000011, 0b01001110] = .instr (.staAbsy 0b0100111010000011) [] ∧
    decode [0b10000001, 0b10000011] = .instr (.staIndx 0b10000011) [] ∧
    decode [0b10010001, 0b10000011] = .instr (.staIndy 0b10000011) [] := by decide

/-- 30_encoding.md R92, R93; the STX rows of spec/opcode_table.json, bit by bit. -/
theorem test_decode_stx :
    decode [0b10000110, 0b10000011] = .instr (.stxZp 0b10000011) [] ∧
    decode [0b10010110, 0b10000011] = .instr (.stxZpy 0b10000011) [] ∧
    decode [0b10001110, 0b10000011, 0b01001110] = .instr (.stxAbs 0b0100111010000011) [] := by decide

/-- 30_encoding.md R92, R93; the STY rows of spec/opcode_table.json, bit by bit. -/
theorem test_decode_sty :
    decode [0b10000100, 0b10000011] = .instr (.styZp 0b10000011) [] ∧
    decode [0b10010100, 0b10000011] = .instr (.styZpx 0b10000011) [] ∧
    decode [0b10001100, 0b10000011, 0b01001110] = .instr (.styAbs 0b0100111010000011) [] := by decide

/-- 30_encoding.md R95: 0x00 (BRK), 0xEA (NOP) and 0x4C (JMP) of the MOS 6502 are unassigned here. -/
theorem test_decode_unassigned :
    decode [0x00, 0x11] = .unassigned 0x00 ∧ decode [0xEA] = .unassigned 0xEA ∧
      decode [0x4C, 0xA9, 0x85] = .unassigned 0x4C := by decide

/-- The table's bit numbering: the first byte is bits 7:0; bits above the count are 0. -/
theorem test_decodeTableWord :
    decodeTableWord 24 0x1234AD = some (.ldaAbs 0x1234) ∧ decodeTableWord 16 0x42A9 = some (.ldaImm 0x42) ∧
      decodeTableWord 8 0xA9 = some (.ldaImm 0x00) ∧ decodeTableWord 8 0x00 = none := by decide

/-- The step after `withFetchWord` runs that instruction, as the first one after reset: V1 of 95_test_vectors.md. -/
theorem test_withFetchWord_runs :
    ∃ t, step (State.reset.withFetchWord 16 0x42A9) = .next t ∧ t.a = 0x42 ∧ t.pc = 0xFFFE ∧ t.getStatus = 0x20 :=
  ⟨_, rfl, by decide⟩

/-! ### Instructions: the vectors of 95_test_vectors.md, parts 2.2 to 2.4 -/

/-- The default start state of 95_test_vectors.md 2.1. -/
def start : State :=
  { a := 0x11, x := 0x04, y := 0x05, pc := 0x0200, sp := 0x0000, flags := Flags.unpack 0x7D, mem := [], run := none }

/-- `s` with instruction bytes at `pc` and the presets of a vector. -/
def placed (s : State) (bytes : List Byte) (presets : List (Nat × Byte)) : State :=
  presets.foldl (fun t cell => { t with mem := t.mem.writeByte cell.1 cell.2 }) (s.placeBytes s.pc bytes)

/-- The status, final budget, registers and status byte after a run, as the vectors tabulate them. -/
abbrev shows (after : RunResult) (status : Status) (budget : Int) (a x y : Byte) (pc : Word) (p : Byte) : Prop :=
  after.status = status ∧ after.budget = budget ∧ after.state.a = a ∧ after.state.x = x ∧ after.state.y = y ∧
    after.state.pc = pc ∧ after.state.getStatus = p

/-- 95_test_vectors.md L1: `LDA #$80`. -/
theorem test_lda_imm_l1 :
    let after := (placed start [0xA9, 0x80] []).execute false 1
    shows after .exhausted (-1) 0x80 0x04 0x05 0x0202 0xFD ∧
      after.accesses =
        [⟨.fetch, 0x0200, 0xA9⟩, ⟨.fetch, 0x0201, 0x80⟩] := by decide

/-- 95_test_vectors.md L5: `LDA #$00`. -/
theorem test_lda_imm_l5 :
    let after := (placed { start with flags := Flags.unpack 0xFF } [0xA9, 0x00] []).execute false 1
    shows after .exhausted (-1) 0x00 0x04 0x05 0x0202 0x7F ∧
      after.accesses =
        [⟨.fetch, 0x0200, 0xA9⟩, ⟨.fetch, 0x0201, 0x00⟩] := by decide

/-- 95_test_vectors.md L6: `LDA $10`. -/
theorem test_lda_zp_l6 :
    let after := (placed start [0xA5, 0x10] [(0x0010, 0x9C)]).execute false 1
    shows after .exhausted (-2) 0x9C 0x04 0x05 0x0202 0xFD ∧
      after.accesses =
        [⟨.fetch, 0x0200, 0xA5⟩, ⟨.fetch, 0x0201, 0x10⟩, ⟨.dataRead, 0x0010, 0x9C⟩] := by decide

/-- 95_test_vectors.md L7: `LDA $FF`. -/
theorem test_lda_zp_l7 :
    let after := (placed start [0xA5, 0xFF] [(0x00FF, 0x01), (0x01FF, 0xEE)]).execute false 1
    shows after .exhausted (-2) 0x01 0x04 0x05 0x0202 0x7D ∧
      after.accesses =
        [⟨.fetch, 0x0200, 0xA5⟩, ⟨.fetch, 0x0201, 0xFF⟩, ⟨.dataRead, 0x00FF, 0x01⟩] := by decide

/-- 95_test_vectors.md L8: `LDA $FE,X`. -/
theorem test_lda_zpx_l8 :
    let after := (placed start [0xB5, 0xFE] [(0x0002, 0x00), (0x0102, 0xEE)]).execute false 1
    shows after .exhausted (-2) 0x00 0x04 0x05 0x0202 0x7F ∧
      after.accesses =
        [⟨.fetch, 0x0200, 0xB5⟩, ⟨.fetch, 0x0201, 0xFE⟩, ⟨.dataRead, 0x0002, 0x00⟩] := by decide

/-- 95_test_vectors.md L9: `LDA $10,X`. -/
theorem test_lda_zpx_l9 :
    let after := (placed start [0xB5, 0x10] [(0x0014, 0x44)]).execute false 1
    shows after .exhausted (-2) 0x44 0x04 0x05 0x0202 0x7D ∧
      after.accesses =
        [⟨.fetch, 0x0200, 0xB5⟩, ⟨.fetch, 0x0201, 0x10⟩, ⟨.dataRead, 0x0014, 0x44⟩] := by decide

/-- 95_test_vectors.md L10: `LDA $1234`. -/
theorem test_lda_abs_l10 :
    let after := (placed start [0xAD, 0x34, 0x12] [(0x1234, 0x01), (0x3412, 0xEE)]).execute false 1
    shows after .exhausted (-3) 0x01 0x04 0x05 0x0203 0x7D ∧
      after.accesses =
        [⟨.fetch, 0x0200, 0xAD⟩, ⟨.fetch, 0x0201, 0x34⟩, ⟨.fetch, 0x0202, 0x12⟩, ⟨.dataRead, 0x1234, 0x01⟩] := by decide

/-- 95_test_vectors.md L11: `LDA $FFFF`. -/
theorem test_lda_abs_l11 :
    let after := (placed start [0xAD, 0xFF, 0xFF] [(0xFFFF, 0x80)]).execute false 1
    shows after .exhausted (-3) 0x80 0x04 0x05 0x0203 0xFD ∧
      after.accesses =
        [⟨.fetch, 0x0200, 0xAD⟩, ⟨.fetch, 0x0201, 0xFF⟩, ⟨.fetch, 0x0202, 0xFF⟩, ⟨.dataRead, 0xFFFF, 0x80⟩] := by decide

/-- 95_test_vectors.md L13: `LDA $FFFB,X`. -/
theorem test_lda_absx_l13 :
    let after := (placed start [0xBD, 0xFB, 0xFF] [(0xFFFF, 0x5A)]).execute false 1
    shows after .exhausted (-3) 0x5A 0x04 0x05 0x0203 0x7D ∧
      after.accesses =
        [⟨.fetch, 0x0200, 0xBD⟩, ⟨.fetch, 0x0201, 0xFB⟩, ⟨.fetch, 0x0202, 0xFF⟩, ⟨.dataRead, 0xFFFF, 0x5A⟩] := by decide

/-- 95_test_vectors.md L14: `LDA $FFFC,X`. -/
theorem test_lda_absx_l14 :
    let after := (placed start [0xBD, 0xFC, 0xFF] [(0x0000, 0xEE)]).execute false 1
    shows after (.outOfRange 0x10000) (-2) 0x11 0x04 0x05 0x0203 0x7D ∧
      after.accesses =
        [⟨.fetch, 0x0200, 0xBD⟩, ⟨.fetch, 0x0201, 0xFC⟩, ⟨.fetch, 0x0202, 0xFF⟩] := by decide

/-- 95_test_vectors.md L16: `LDA $0300,Y`. -/
theorem test_lda_absy_l16 :
    let after := (placed start [0xB9, 0x00, 0x03] [(0x0305, 0x21)]).execute false 1
    shows after .exhausted (-3) 0x21 0x04 0x05 0x0203 0x7D ∧
      after.accesses =
        [⟨.fetch, 0x0200, 0xB9⟩, ⟨.fetch, 0x0201, 0x00⟩, ⟨.fetch, 0x0202, 0x03⟩, ⟨.dataRead, 0x0305, 0x21⟩] := by decide

/-- 95_test_vectors.md L17: `LDA $FFFF,Y`. -/
theorem test_lda_absy_l17 :
    let after := (placed { start with y := 0x01 } [0xB9, 0xFF, 0xFF] [(0x0000, 0xEE)]).execute false 1
    shows after (.outOfRange 0x10000) (-2) 0x11 0x04 0x01 0x0203 0x7D ∧
      after.accesses =
        [⟨.fetch, 0x0200, 0xB9⟩, ⟨.fetch, 0x0201, 0xFF⟩, ⟨.fetch, 0x0202, 0xFF⟩] := by decide

/-- 95_test_vectors.md L19: `LDA ($FE,X)`. -/
theorem test_lda_indx_l19 :
    let after := (placed start [0xA1, 0xFE] [(0x0002, 0x00), (0x0003, 0x80), (0x8000, 0x99), (0x0102, 0xEE), (0x0103, 0xEE)]).execute false 1
    shows after .exhausted (-4) 0x99 0x04 0x05 0x0202 0xFD ∧
      after.accesses =
        [⟨.fetch, 0x0200, 0xA1⟩, ⟨.fetch, 0x0201, 0xFE⟩, ⟨.pointerRead, 0x0002, 0x00⟩, ⟨.pointerRead, 0x0003, 0x80⟩, ⟨.dataRead, 0x8000, 0x99⟩] := by decide

/-- 95_test_vectors.md L20: `LDA ($FB,X)`. -/
theorem test_lda_indx_l20 :
    let after := (placed start [0xA1, 0xFB] [(0x00FF, 0x34), (0x0100, 0x12), (0x0000, 0x77), (0x1234, 0xC3), (0x7734, 0xEE)]).execute false 1
    shows after .exhausted (-4) 0xC3 0x04 0x05 0x0202 0xFD ∧
      after.accesses =
        [⟨.fetch, 0x0200, 0xA1⟩, ⟨.fetch, 0x0201, 0xFB⟩, ⟨.pointerRead, 0x00FF, 0x34⟩, ⟨.pointerRead, 0x0100, 0x12⟩, ⟨.dataRead, 0x1234, 0xC3⟩] := by decide

/-- 95_test_vectors.md L23: `LDA ($40),Y`. -/
theorem test_lda_indy_l23 :
    let after := (placed start [0xB1, 0x40] [(0x0040, 0xFE), (0x0041, 0xFF), (0x0003, 0xEE)]).execute false 1
    shows after (.outOfRange 0x10003) (-3) 0x11 0x04 0x05 0x0202 0x7D ∧
      after.accesses =
        [⟨.fetch, 0x0200, 0xB1⟩, ⟨.fetch, 0x0201, 0x40⟩, ⟨.pointerRead, 0x0040, 0xFE⟩, ⟨.pointerRead, 0x0041, 0xFF⟩] := by decide

/-- 95_test_vectors.md L25: `LDA ($FF),Y`. -/
theorem test_lda_indy_l25 :
    let after := (placed start [0xB1, 0xFF] [(0x00FF, 0x00), (0x0100, 0x20), (0x0000, 0x30), (0x2005, 0x55), (0x3005, 0xEE)]).execute false 1
    shows after .exhausted (-4) 0x55 0x04 0x05 0x0202 0x7D ∧
      after.accesses =
        [⟨.fetch, 0x0200, 0xB1⟩, ⟨.fetch, 0x0201, 0xFF⟩, ⟨.pointerRead, 0x00FF, 0x00⟩, ⟨.pointerRead, 0x0100, 0x20⟩, ⟨.dataRead, 0x2005, 0x55⟩] := by decide

/-- 95_test_vectors.md L26: `LDX #$80`. -/
theorem test_ldx_imm_l26 :
    let after := (placed start [0xA2, 0x80] []).execute false 1
    shows after .exhausted (-1) 0x11 0x80 0x05 0x0202 0xFD ∧
      after.accesses =
        [⟨.fetch, 0x0200, 0xA2⟩, ⟨.fetch, 0x0201, 0x80⟩] := by decide

/-- 95_test_vectors.md L27: `LDX #$00`. -/
theorem test_ldx_imm_l27 :
    let after := (placed start [0xA2, 0x00] []).execute false 1
    shows after .exhausted (-1) 0x11 0x00 0x05 0x0202 0x7F ∧
      after.accesses =
        [⟨.fetch, 0x0200, 0xA2⟩, ⟨.fetch, 0x0201, 0x00⟩] := by decide

/-- 95_test_vectors.md L28: `LDX $10`. -/
theorem test_ldx_zp_l28 :
    let after := (placed start [0xA6, 0x10] [(0x0010, 0x7E)]).execute false 1
    shows after .exhausted (-2) 0x11 0x7E 0x05 0x0202 0x7D ∧
      after.accesses =
        [⟨.fetch, 0x0200, 0xA6⟩, ⟨.fetch, 0x0201, 0x10⟩, ⟨.dataRead, 0x0010, 0x7E⟩] := by decide

/-- 95_test_vectors.md L29: `LDX $FE,Y`. -/
theorem test_ldx_zpy_l29 :
    let after := (placed start [0xB6, 0xFE] [(0x0003, 0x81), (0x0103, 0xEE)]).execute false 1
    shows after .exhausted (-2) 0x11 0x81 0x05 0x0202 0xFD ∧
      after.accesses =
        [⟨.fetch, 0x0200, 0xB6⟩, ⟨.fetch, 0x0201, 0xFE⟩, ⟨.dataRead, 0x0003, 0x81⟩] := by decide

/-- 95_test_vectors.md L30: `LDX $1234`. -/
theorem test_ldx_abs_l30 :
    let after := (placed start [0xAE, 0x34, 0x12] [(0x1234, 0x00)]).execute false 1
    shows after .exhausted (-3) 0x11 0x00 0x05 0x0203 0x7F ∧
      after.accesses =
        [⟨.fetch, 0x0200, 0xAE⟩, ⟨.fetch, 0x0201, 0x34⟩, ⟨.fetch, 0x0202, 0x12⟩, ⟨.dataRead, 0x1234, 0x00⟩] := by decide

/-- 95_test_vectors.md L31: `LDX $02FB,Y`. -/
theorem test_ldx_absy_l31 :
    let after := (placed start [0xBE, 0xFB, 0x02] [(0x0300, 0x0A)]).execute false 1
    shows after .exhausted (-3) 0x11 0x0A 0x05 0x0203 0x7D ∧
      after.accesses =
        [⟨.fetch, 0x0200, 0xBE⟩, ⟨.fetch, 0x0201, 0xFB⟩, ⟨.fetch, 0x0202, 0x02⟩, ⟨.dataRead, 0x0300, 0x0A⟩] := by decide

/-- 95_test_vectors.md L32: `LDX $FFFB,Y`. -/
theorem test_ldx_absy_l32 :
    let after := (placed start [0xBE, 0xFB, 0xFF] [(0x0000, 0xEE)]).execute false 1
    shows after (.outOfRange 0x10000) (-2) 0x11 0x04 0x05 0x0203 0x7D ∧
      after.accesses =
        [⟨.fetch, 0x0200, 0xBE⟩, ⟨.fetch, 0x0201, 0xFB⟩, ⟨.fetch, 0x0202, 0xFF⟩] := by decide

/-- 95_test_vectors.md L33: `LDY #$80`. -/
theorem test_ldy_imm_l33 :
    let after := (placed start [0xA0, 0x80] []).execute false 1
    shows after .exhausted (-1) 0x11 0x04 0x80 0x0202 0xFD ∧
      after.accesses =
        [⟨.fetch, 0x0200, 0xA0⟩, ⟨.fetch, 0x0201, 0x80⟩] := by decide

/-- 95_test_vectors.md L34: `LDY #$00`. -/
theorem test_ldy_imm_l34 :
    let after := (placed start [0xA0, 0x00] []).execute false 1
    shows after .exhausted (-1) 0x11 0x04 0x00 0x0202 0x7F ∧
      after.accesses =
        [⟨.fetch, 0x0200, 0xA0⟩, ⟨.fetch, 0x0201, 0x00⟩] := by decide

/-- 95_test_vectors.md L35: `LDY $10`. -/
theorem test_ldy_zp_l35 :
    let after := (placed start [0xA4, 0x10] [(0x0010, 0x7E)]).execute false 1
    shows after .exhausted (-2) 0x11 0x04 0x7E 0x0202 0x7D ∧
      after.accesses =
        [⟨.fetch, 0x0200, 0xA4⟩, ⟨.fetch, 0x0201, 0x10⟩, ⟨.dataRead, 0x0010, 0x7E⟩] := by decide

/-- 95_test_vectors.md L36: `LDY $FE,X`. -/
theorem test_ldy_zpx_l36 :
    let after := (placed start [0xB4, 0xFE] [(0x0002, 0x81), (0x0102, 0xEE)]).execute false 1
    shows after .exhausted (-2) 0x11 0x04 0x81 0x0202 0xFD ∧
      after.accesses =
        [⟨.fetch, 0x0200, 0xB4⟩, ⟨.fetch, 0x0201, 0xFE⟩, ⟨.dataRead, 0x0002, 0x81⟩] := by decide

/-- 95_test_vectors.md L37: `LDY $1234`. -/
theorem test_ldy_abs_l37 :
    let after := (placed start [0xAC, 0x34, 0x12] [(0x1234, 0x00)]).execute false 1
    shows after .exhausted (-3) 0x11 0x04 0x00 0x0203 0x7F ∧
      after.accesses =
        [⟨.fetch, 0x0200, 0xAC⟩, ⟨.fetch, 0x0201, 0x34⟩, ⟨.fetch, 0x0202, 0x12⟩, ⟨.dataRead, 0x1234, 0x00⟩] := by decide

/-- 95_test_vectors.md L38: `LDY $02FC,X`. -/
theorem test_ldy_absx_l38 :
    let after := (placed start [0xBC, 0xFC, 0x02] [(0x0300, 0x0B)]).execute false 1
    shows after .exhausted (-3) 0x11 0x04 0x0B 0x0203 0x7D ∧
      after.accesses =
        [⟨.fetch, 0x0200, 0xBC⟩, ⟨.fetch, 0x0201, 0xFC⟩, ⟨.fetch, 0x0202, 0x02⟩, ⟨.dataRead, 0x0300, 0x0B⟩] := by decide

/-- 95_test_vectors.md L39: `LDY $FFFC,X`. -/
theorem test_ldy_absx_l39 :
    let after := (placed start [0xBC, 0xFC, 0xFF] [(0x0000, 0xEE)]).execute false 1
    shows after (.outOfRange 0x10000) (-2) 0x11 0x04 0x05 0x0203 0x7D ∧
      after.accesses =
        [⟨.fetch, 0x0200, 0xBC⟩, ⟨.fetch, 0x0201, 0xFC⟩, ⟨.fetch, 0x0202, 0xFF⟩] := by decide

/-- 95_test_vectors.md S1: `STA $10`. -/
theorem test_sta_zp_s1 :
    let after := (placed start [0x85, 0x10] []).execute false 1
    shows after .exhausted (-2) 0x11 0x04 0x05 0x0202 0x7D ∧
      after.accesses =
        [⟨.fetch, 0x0200, 0x85⟩, ⟨.fetch, 0x0201, 0x10⟩, ⟨.dataWrite, 0x0010, 0x11⟩] ∧
      after.state.mem.readByte 0x0010 = 0x11 := by decide

/-- 95_test_vectors.md S3: `STA $10`. -/
theorem test_sta_zp_s3 :
    let after := (placed { start with a := 0x80, flags := Flags.unpack 0x20 } [0x85, 0x10] []).execute false 1
    shows after .exhausted (-2) 0x80 0x04 0x05 0x0202 0x20 ∧
      after.accesses =
        [⟨.fetch, 0x0200, 0x85⟩, ⟨.fetch, 0x0201, 0x10⟩, ⟨.dataWrite, 0x0010, 0x80⟩] ∧
      after.state.mem.readByte 0x0010 = 0x80 := by decide

/-- 95_test_vectors.md S4: `STA $FE,X`. -/
theorem test_sta_zpx_s4 :
    let after := (placed start [0x95, 0xFE] []).execute false 1
    shows after .exhausted (-2) 0x11 0x04 0x05 0x0202 0x7D ∧
      after.accesses =
        [⟨.fetch, 0x0200, 0x95⟩, ⟨.fetch, 0x0201, 0xFE⟩, ⟨.dataWrite, 0x0002, 0x11⟩] ∧
      after.state.mem.readByte 0x0002 = 0x11 := by decide

/-- 95_test_vectors.md S5: `STA $1234`. -/
theorem test_sta_abs_s5 :
    let after := (placed start [0x8D, 0x34, 0x12] []).execute false 1
    shows after .exhausted (-3) 0x11 0x04 0x05 0x0203 0x7D ∧
      after.accesses =
        [⟨.fetch, 0x0200, 0x8D⟩, ⟨.fetch, 0x0201, 0x34⟩, ⟨.fetch, 0x0202, 0x12⟩, ⟨.dataWrite, 0x1234, 0x11⟩] ∧
      after.state.mem.readByte 0x1234 = 0x11 := by decide

/-- 95_test_vectors.md S6: `STA $FFFF`. -/
theorem test_sta_abs_s6 :
    let after := (placed start [0x8D, 0xFF, 0xFF] []).execute false 1
    shows after .exhausted (-3) 0x11 0x04 0x05 0x0203 0x7D ∧
      after.accesses =
        [⟨.fetch, 0x0200, 0x8D⟩, ⟨.fetch, 0x0201, 0xFF⟩, ⟨.fetch, 0x0202, 0xFF⟩, ⟨.dataWrite, 0xFFFF, 0x11⟩] ∧
      after.state.mem.readByte 0xFFFF = 0x11 := by decide

/-- 95_test_vectors.md S7: `STA $02FC,X`. -/
theorem test_sta_absx_s7 :
    let after := (placed start [0x9D, 0xFC, 0x02] []).execute false 1
    shows after .exhausted (-3) 0x11 0x04 0x05 0x0203 0x7D ∧
      after.accesses =
        [⟨.fetch, 0x0200, 0x9D⟩, ⟨.fetch, 0x0201, 0xFC⟩, ⟨.fetch, 0x0202, 0x02⟩, ⟨.dataWrite, 0x0300, 0x11⟩] ∧
      after.state.mem.readByte 0x0300 = 0x11 := by decide

/-- 95_test_vectors.md S8: `STA $FFFC,X`. -/
theorem test_sta_absx_s8 :
    let after := (placed start [0x9D, 0xFC, 0xFF] []).execute false 1
    shows after (.outOfRange 0x10000) (-2) 0x11 0x04 0x05 0x0203 0x7D ∧
      after.accesses =
        [⟨.fetch, 0x0200, 0x9D⟩, ⟨.fetch, 0x0201, 0xFC⟩, ⟨.fetch, 0x0202, 0xFF⟩] := by decide

/-- 95_test_vectors.md S9: `STA $0300,Y`. -/
theorem test_sta_absy_s9 :
    let after := (placed start [0x99, 0x00, 0x03] []).execute false 1
    shows after .exhausted (-3) 0x11 0x04 0x05 0x0203 0x7D ∧
      after.accesses =
        [⟨.fetch, 0x0200, 0x99⟩, ⟨.fetch, 0x0201, 0x00⟩, ⟨.fetch, 0x0202, 0x03⟩, ⟨.dataWrite, 0x0305, 0x11⟩] ∧
      after.state.mem.readByte 0x0305 = 0x11 := by decide

/-- 95_test_vectors.md S10: `STA $FFFB,Y`. -/
theorem test_sta_absy_s10 :
    let after := (placed start [0x99, 0xFB, 0xFF] []).execute false 1
    shows after (.outOfRange 0x10000) (-2) 0x11 0x04 0x05 0x0203 0x7D ∧
      after.accesses =
        [⟨.fetch, 0x0200, 0x99⟩, ⟨.fetch, 0x0201, 0xFB⟩, ⟨.fetch, 0x0202, 0xFF⟩] := by decide

/-- 95_test_vectors.md S11: `STA ($20,X)`. -/
theorem test_sta_indx_s11 :
    let after := (placed start [0x81, 0x20] [(0x0024, 0x10), (0x0025, 0x06)]).execute false 1
    shows after .exhausted (-4) 0x11 0x04 0x05 0x0202 0x7D ∧
      after.accesses =
        [⟨.fetch, 0x0200, 0x81⟩, ⟨.fetch, 0x0201, 0x20⟩, ⟨.pointerRead, 0x0024, 0x10⟩, ⟨.pointerRead, 0x0025, 0x06⟩, ⟨.dataWrite, 0x0610, 0x11⟩] ∧
      after.state.mem.readByte 0x0610 = 0x11 := by decide

/-- 95_test_vectors.md S12: `STA ($FB,X)`. -/
theorem test_sta_indx_s12 :
    let after := (placed start [0x81, 0xFB] [(0x00FF, 0x34), (0x0100, 0x12)]).execute false 1
    shows after .exhausted (-4) 0x11 0x04 0x05 0x0202 0x7D ∧
      after.accesses =
        [⟨.fetch, 0x0200, 0x81⟩, ⟨.fetch, 0x0201, 0xFB⟩, ⟨.pointerRead, 0x00FF, 0x34⟩, ⟨.pointerRead, 0x0100, 0x12⟩, ⟨.dataWrite, 0x1234, 0x11⟩] ∧
      after.state.mem.readByte 0x1234 = 0x11 := by decide

/-- 95_test_vectors.md S13: `STA ($20),Y`. -/
theorem test_sta_indy_s13 :
    let after := (placed start [0x91, 0x20] [(0x0020, 0x00), (0x0021, 0x05)]).execute false 1
    shows after .exhausted (-4) 0x11 0x04 0x05 0x0202 0x7D ∧
      after.accesses =
        [⟨.fetch, 0x0200, 0x91⟩, ⟨.fetch, 0x0201, 0x20⟩, ⟨.pointerRead, 0x0020, 0x00⟩, ⟨.pointerRead, 0x0021, 0x05⟩, ⟨.dataWrite, 0x0505, 0x11⟩] ∧
      after.state.mem.readByte 0x0505 = 0x11 := by decide

/-- 95_test_vectors.md S14: `STA ($40),Y`. -/
theorem test_sta_indy_s14 :
    let after := (placed start [0x91, 0x40] [(0x0040, 0xFE), (0x0041, 0xFF)]).execute false 1
    shows after (.outOfRange 0x10003) (-3) 0x11 0x04 0x05 0x0202 0x7D ∧
      after.accesses =
        [⟨.fetch, 0x0200, 0x91⟩, ⟨.fetch, 0x0201, 0x40⟩, ⟨.pointerRead, 0x0040, 0xFE⟩, ⟨.pointerRead, 0x0041, 0xFF⟩] := by decide

/-- 95_test_vectors.md S15: `STX $10`. -/
theorem test_stx_zp_s15 :
    let after := (placed start [0x86, 0x10] []).execute false 1
    shows after .exhausted (-2) 0x11 0x04 0x05 0x0202 0x7D ∧
      after.accesses =
        [⟨.fetch, 0x0200, 0x86⟩, ⟨.fetch, 0x0201, 0x10⟩, ⟨.dataWrite, 0x0010, 0x04⟩] ∧
      after.state.mem.readByte 0x0010 = 0x04 := by decide

/-- 95_test_vectors.md S16: `STX $FE,Y`. -/
theorem test_stx_zpy_s16 :
    let after := (placed start [0x96, 0xFE] []).execute false 1
    shows after .exhausted (-2) 0x11 0x04 0x05 0x0202 0x7D ∧
      after.accesses =
        [⟨.fetch, 0x0200, 0x96⟩, ⟨.fetch, 0x0201, 0xFE⟩, ⟨.dataWrite, 0x0003, 0x04⟩] ∧
      after.state.mem.readByte 0x0003 = 0x04 := by decide

/-- 95_test_vectors.md S17: `STX $1234`. -/
theorem test_stx_abs_s17 :
    let after := (placed start [0x8E, 0x34, 0x12] []).execute false 1
    shows after .exhausted (-3) 0x11 0x04 0x05 0x0203 0x7D ∧
      after.accesses =
        [⟨.fetch, 0x0200, 0x8E⟩, ⟨.fetch, 0x0201, 0x34⟩, ⟨.fetch, 0x0202, 0x12⟩, ⟨.dataWrite, 0x1234, 0x04⟩] ∧
      after.state.mem.readByte 0x1234 = 0x04 := by decide

/-- 95_test_vectors.md S18: `STY $10`. -/
theorem test_sty_zp_s18 :
    let after := (placed start [0x84, 0x10] []).execute false 1
    shows after .exhausted (-2) 0x11 0x04 0x05 0x0202 0x7D ∧
      after.accesses =
        [⟨.fetch, 0x0200, 0x84⟩, ⟨.fetch, 0x0201, 0x10⟩, ⟨.dataWrite, 0x0010, 0x05⟩] ∧
      after.state.mem.readByte 0x0010 = 0x05 := by decide

/-- 95_test_vectors.md S19: `STY $FE,X`. -/
theorem test_sty_zpx_s19 :
    let after := (placed start [0x94, 0xFE] []).execute false 1
    shows after .exhausted (-2) 0x11 0x04 0x05 0x0202 0x7D ∧
      after.accesses =
        [⟨.fetch, 0x0200, 0x94⟩, ⟨.fetch, 0x0201, 0xFE⟩, ⟨.dataWrite, 0x0002, 0x05⟩] ∧
      after.state.mem.readByte 0x0002 = 0x05 := by decide

/-- 95_test_vectors.md S20: `STY $1234`. -/
theorem test_sty_abs_s20 :
    let after := (placed start [0x8C, 0x34, 0x12] []).execute false 1
    shows after .exhausted (-3) 0x11 0x04 0x05 0x0203 0x7D ∧
      after.accesses =
        [⟨.fetch, 0x0200, 0x8C⟩, ⟨.fetch, 0x0201, 0x34⟩, ⟨.fetch, 0x0202, 0x12⟩, ⟨.dataWrite, 0x1234, 0x05⟩] ∧
      after.state.mem.readByte 0x1234 = 0x05 := by decide

/-! ### The engine -/

/-- 95_test_vectors.md E1: `LDA #$42`. -/
theorem test_engine_e1 :
    let after := (placed start [0xA9, 0x42] []).execute false (0)
    shows after .exhausted (0) 0x11 0x04 0x05 0x0200 0x7D ∧
      after.accesses =
        [] := by decide

/-- 95_test_vectors.md E2: `LDA #$42`. -/
theorem test_engine_e2 :
    let after := (placed start [0xA9, 0x42] []).execute false (-3)
    shows after .exhausted (-3) 0x11 0x04 0x05 0x0200 0x7D ∧
      after.accesses =
        [] := by decide

/-- 95_test_vectors.md E6: `LDA ($20,X)`. -/
theorem test_engine_e6 :
    let after := (placed start [0xA1, 0x20] [(0x0024, 0x10), (0x0025, 0x06), (0x0610, 0x42)]).execute false 1
    shows after .exhausted (-4) 0x42 0x04 0x05 0x0202 0x7D ∧
      after.accesses =
        [⟨.fetch, 0x0200, 0xA1⟩, ⟨.fetch, 0x0201, 0x20⟩, ⟨.pointerRead, 0x0024, 0x10⟩, ⟨.pointerRead, 0x0025, 0x06⟩, ⟨.dataRead, 0x0610, 0x42⟩] := by decide

/-- 95_test_vectors.md E7: `(0x02)`. -/
theorem test_engine_e7 :
    let after := (placed start [0x02] []).execute false 1
    shows after .exhausted (0) 0x11 0x04 0x05 0x0201 0x7D ∧
      after.accesses =
        [⟨.fetch, 0x0200, 0x02⟩] := by decide

/-- 95_test_vectors.md E10: `LDA #$33 at 0xFFFF`. -/
theorem test_engine_e10 :
    let after := (placed { start with pc := 0xFFFF } [0xA9, 0x33] []).execute false 1
    shows after .exhausted (-1) 0x33 0x04 0x05 0x0001 0x7D ∧
      after.accesses =
        [⟨.fetch, 0xFFFF, 0xA9⟩, ⟨.fetch, 0x0000, 0x33⟩] := by decide

/-- 95_test_vectors.md E11: `LDA $1234 at 0xFFFE`. -/
theorem test_engine_e11 :
    let after := (placed { start with pc := 0xFFFE } [0xAD, 0x34, 0x12] [(0x1234, 0x6B)]).execute false 1
    shows after .exhausted (-3) 0x6B 0x04 0x05 0x0001 0x7D ∧
      after.accesses =
        [⟨.fetch, 0xFFFE, 0xAD⟩, ⟨.fetch, 0xFFFF, 0x34⟩, ⟨.fetch, 0x0000, 0x12⟩, ⟨.dataRead, 0x1234, 0x6B⟩] := by decide

/-- 95_test_vectors.md E12: `LDA #$01; LDA #$02`. -/
theorem test_engine_e12 :
    let after := (placed start [0xA9, 0x01, 0xA9, 0x02] []).execute false (3)
    shows after .exhausted (-1) 0x02 0x04 0x05 0x0204 0x7D ∧
      after.accesses =
        [⟨.fetch, 0x0200, 0xA9⟩, ⟨.fetch, 0x0201, 0x01⟩, ⟨.fetch, 0x0202, 0xA9⟩, ⟨.fetch, 0x0203, 0x02⟩] := by decide

/-- 95_test_vectors.md E9: `(0xEA); LDA #$01`. -/
theorem test_engine_e9 :
    let after := (placed start [0xEA, 0xA9, 0x01] []).execute true (2)
    shows after (.unhandledStop 0x0200 0xEA) (1) 0x11 0x04 0x05 0x0201 0x7D ∧
      after.accesses =
        [⟨.fetch, 0x0200, 0xEA⟩] := by decide

/-! ### The host interface, reset and the stack primitive -/

/-- 95_test_vectors.md V1 with `execute(2)`: the zero and negative flags stay clear, the budget ends at 0. -/
theorem test_v1 :
    let after := (placed State.reset [0xA9, 0x42] []).execute false 2
    shows after .exhausted 0 0x42 0x00 0x00 0xFFFE 0x20 ∧ after.state.sp = 0x0100 := by decide

/-- 95_test_vectors.md V7, V8: the host port at 65536. -/
theorem test_v7_v8 :
    hostOp false (.read 65536) start = some (.outOfRange 65536, start) ∧
      hostOp false (.write 65536 0x55) start = some (.outOfRange 65536, start) := by decide

/-- 95_test_vectors.md V9: the last write wins, and a written zero reads as zero. -/
theorem test_v9 :
    ((start.mem.writeByte 0x1234 0xFF).writeByte 0x1234 0x00).readByte 0x1234 = 0x00 := by decide

/-- 95_test_vectors.md V16, V17: the deriving setter touches Z and N only, the plain setter no flag. -/
theorem test_v16_v17 :
    ((start.setStatus 0xFF).setDeriving .a 0x00).getStatus = 0x7F ∧
      ((start.setStatus 0x20).setReg .a 0x00).getStatus = 0x20 := by decide

/-- 95_test_vectors.md V18 to V26. -/
theorem test_status_byte :
    (start.setStatus 0x00).getStatus = 0x20 ∧ (start.setStatus 0x20).getStatus = 0x20 ∧
      (start.setStatus 0xFF).getStatus = 0xFF ∧ (start.setStatus 0xDF).getStatus = 0xFF ∧
      (start.setStatus 0x80).flags = { Flags.clear with n := true } ∧
      (start.setStatus 0x02).flags = { Flags.clear with z := true } ∧
      (start.setStatus 0x10).flags = { Flags.clear with b := true } ∧
      (start.setStatus 0x55).flags = { Flags.clear with v := true, b := true, i := true, c := true } ∧
      (start.setStatus 0xAA).flags = { Flags.clear with n := true, d := true, z := true } := by decide

/-- 95_test_vectors.md H1, H2: reset after power-on. -/
theorem test_h1_h2 :
    State.powerOn.getStatus = 0x20 ∧ hostOp false .reset State.powerOn = some (.done, State.reset) := by decide

/-- 95_test_vectors.md H3: reset erases memory, registers and flags. -/
theorem test_h3 :
    hostOp false .reset { (start.setStatus 0xFF) with mem := [(0x0300, 0x77)] } = some (.done, State.reset) := by decide

/-- 95_test_vectors.md K1: the first push after reset wraps. -/
theorem test_k1 :
    let t := State.reset.pushWord 0x1234
    t.mem = [(0x0100, 0x12), (0x01FF, 0x34)] ∧ t.sp = 0x00FE := by decide

/-- 95_test_vectors.md K2, K5: the word lies low byte first; only `sp[7:0]` forms the address. -/
theorem test_k2_k5 :
    ({ State.powerOn with sp := 0x01FD }.pushWord 0xABCD).mem = [(0x01FC, 0xCD), (0x01FD, 0xAB)] ∧
      ({ State.powerOn with sp := 0x01FD }.pushWord 0xABCD).sp = 0x01FB ∧
      ({ State.powerOn with sp := 0xFFFF }.pushWord 0x0102).mem = [(0x01FE, 0x02), (0x01FF, 0x01)] ∧
      ({ State.powerOn with sp := 0xFFFF }.pushWord 0x0102).sp = 0xFFFD := by decide

/-- 95_test_vectors.md K3: the whole register is decremented. -/
theorem test_k3 : (State.powerOn.pushWord 0xBEEF).sp = 0xFFFE := by decide

/-- A write of zero removes the entry, so equal memories are equal data; the form holds after writes in any order. -/
theorem test_memory_canonical :
    Memory.wf (Memory.writeByte (Memory.writeByte (Memory.writeByte [] 9 1) 3 2) 65535 4) = true ∧
      Memory.writeByte (Memory.writeByte [] 9 1) 9 0 = [] ∧ Memory.wf [(3, 0x00)] = false ∧
      Memory.wf [(3, 1), (3, 2)] = false ∧ Memory.wf [(65536, 1)] = false := by decide

/-- 20_memory.md R65: the byte at the lower address is bits 7:0; the second read at 0xFFFF is at 65536, not at 0. The word
at 0x0024 is that of vector L18 of 95_test_vectors.md. -/
theorem test_memRead16 :
    (placed start [] [(0x0024, 0x10), (0x0025, 0x06)]).memRead16 0x0024 = .ok 0x0610 ∧
      start.memRead16 65535 = .error 65536 ∧ start.memRead16 65536 = .error 65536 := ⟨rfl, rfl, rfl⟩

/-! ### Witnesses: the hypotheses of the obligations can be met -/

/-- An idle engine: the hypothesis of the obligations on host operations. -/
theorem witness_idle : start.runState = .idle ∧ State.reset.runState = .idle ∧ State.powerOn.runState = .idle := by decide

/-- HostActsOnlyWhileIdle: both clauses. -/
theorem witness_HostActsOnlyWhileIdle : (start.startRun 1).runState = .running ∧ start.runState = .idle := by decide

/-- ResetLeavesDocumentedState and PowerOnStateIsZero: the highest address. -/
theorem witness_address_below_capacity : 65535 < 65536 ∧ State.reset.memRead 65535 = some 0x00 := by decide

/-- MemoryRoundTrip: an idle engine, an address in each clause at the boundary, another address. -/
theorem witness_MemoryRoundTrip :
    start.runState = .idle ∧ 65535 < 65536 ∧ 65536 ≤ 65536 ∧ (0 : Nat) ≠ 65535 := by decide

theorem witness_ReinitializeClearsOnlyMemory : start.runState = .idle := by decide

theorem witness_GettersChangeNothing : start.runState = .idle := by decide

theorem witness_SettersWriteOnlyTheirTargets : start.runState = .idle := by decide

theorem witness_StatusByteLayout : start.runState = .idle := by decide

/-- ChargedAccessPrimitives: a run in progress, an address in each clause at the boundary, another address. -/
theorem witness_ChargedAccessPrimitives :
    (start.startRun 1).run = some ⟨1, [], []⟩ ∧ 65535 < 65536 ∧ 65536 ≤ 65536 ∧ (0 : Nat) ≠ 65535 := by decide

theorem witness_DecodeInvertsEncode : Instr.wellFormed (.staAbs 0xFFFF) = true := by decide

theorem witness_DecodedBytesAreTheEncoding :
    decode [0x8D, 0xFF, 0xFF, 0x01] = .instr (.staAbs 0xFFFF) [0x01] := by decide

/-- The start state with bytes at 0x0200 and a run in progress of the smallest positive budget. -/
def running (bytes : List Byte) : State := (placed start bytes []).startRun 1

theorem witness_fueled (bytes : List Byte) : (running bytes).fueled := ⟨⟨1, [], []⟩, rfl, by decide⟩

theorem witness_StepRunsTheDecodedInstruction :
    (running [0xA1, 0xFE]).fueled ∧
      decode [(running [0xA1, 0xFE]).byteAt (running [0xA1, 0xFE]).pc,
        (running [0xA1, 0xFE]).byteAt ((running [0xA1, 0xFE]).pc + 1),
        (running [0xA1, 0xFE]).byteAt ((running [0xA1, 0xFE]).pc + 2)] = .instr (.ldaIndx 0xFE) [0x00] ∧
      Instr.wellFormed (.ldaIndx 0xFE) = true :=
  ⟨witness_fueled _, by decide, by decide⟩

theorem witness_UnassignedOpcodeIsConsumed :
    (running [0x02]).run = some ⟨1, [], []⟩ ∧ (0 : Int) < 1 ∧
      lookupOpcode ((running [0x02]).byteAt (running [0x02]).pc) = none :=
  ⟨rfl, by decide, rfl⟩

/-- StepWithoutFuel: an idle engine; runs with the budget 0 and -4. -/
theorem witness_StepWithoutFuel :
    start.runState = .idle ∧ (start.startRun 0).run = some ⟨0, [], []⟩ ∧ (0 : Int) ≤ 0 ∧
      (start.startRun (-4)).run = some ⟨-4, [], []⟩ ∧ (-4 : Int) ≤ 0 := by decide

/-- IterationMovesPcPastInstruction: an instruction that completes, one that faults, an unassigned opcode. -/
theorem witness_IterationMovesPcPastInstruction :
    ((running [0xA9, 0x42]).fueled ∧ (∃ t, handsOn (stepWith false (running [0xA9, 0x42])) t) ∧
      decode (running [0xA9, 0x42]).codeBytes = .instr (.ldaImm 0x42) [0x00]) ∧
    ((running [0xBD, 0xFC, 0xFF]).fueled ∧ (∃ t, handsOn (stepWith false (running [0xBD, 0xFC, 0xFF])) t) ∧
      decode (running [0xBD, 0xFC, 0xFF]).codeBytes = .instr (.ldaAbsx 0xFFFC) []) ∧
    ((running [0x02]).fueled ∧ (∃ t, handsOn (stepWith true (running [0x02])) t) ∧
      decode (running [0x02]).codeBytes = .unassigned 0x02) :=
  ⟨⟨witness_fueled _, ⟨_, .inl rfl⟩, by decide⟩, ⟨witness_fueled _, ⟨_, .inr (.inl ⟨_, rfl⟩)⟩, by decide⟩,
    ⟨witness_fueled _, ⟨_, .inr (.inr ⟨_, _, rfl⟩)⟩, by decide⟩⟩

/-- A state about to run `LDA $1234` at 0xFFFE. -/
def straddling : State := (placed { start with pc := 0xFFFE } [0xAD, 0x34, 0x12] []).startRun 1

theorem witness_InstructionStraddlesTheTop :
    straddling.fueled ∧ Instr.length (.ldaAbs 0x1234) = 3 ∧ straddling.pc = 0xFFFE#16 ∧
      [straddling.byteAt 0xFFFE#16, straddling.byteAt 0xFFFF#16, straddling.byteAt 0x0000#16] = encode (.ldaAbs 0x1234) ∧
      ∃ t, handsOn (step straddling) t :=
  ⟨⟨⟨1, [], []⟩, rfl, by decide⟩, by decide, by decide, by decide, ⟨_, .inl rfl⟩⟩

/-- NextFetchSeesTheStore: `STA $0203` at 0x0200 stores into the next opcode. -/
theorem witness_NextFetchSeesTheStore :
    Instr.entry (.staAbs 0x0203) = ⟨.store, .a, .abs⟩ ∧
      ∃ t, exec (.staAbs 0x0203) start = .next t ∧ effectiveAddress start (.staAbs 0x0203) = some t.pc.toNat :=
  ⟨rfl, _, rfl, by decide⟩

/-- LoadAbsoluteIndexedResult and StoreAbsoluteIndexedResult: the sums 65535 and 65536, with X = 4 and Y = 5. -/
theorem witness_absolute_indexed :
    (0xFFFB#16).toNat + start.x.toNat = 65535 ∧ (0xFFFC#16).toNat + start.x.toNat = 65536 ∧
      (0xFFFA#16).toNat + start.y.toNat = 65535 ∧ (0xFFFB#16).toNat + start.y.toNat = 65536 := by decide

/-- A state whose pointer at 0x40 holds 0xFFFA, so that Y decides: 5 reaches 65535, 6 reaches 65536. -/
def pointing (y : Byte) : State := placed { start with y := y } [] [(0x0040, 0xFA), (0x0041, 0xFF)]

/-- LoadIndirectYResult and StoreIndirectYResult: the sums 65535 and 65536. -/
theorem witness_indirect_y :
    (pointing 5).wordAt 0x0040 + (pointing 5).y.toNat = 65535 ∧
      (pointing 6).wordAt 0x0040 + (pointing 6).y.toNat = 65536 := by decide

/-- LoadActionWritesRegisterZAndN and LoadsChangeOnlyDestinationAndZN: a load in mode IMM, one from the last address, one
whose read raises, and a register that is not the destination. -/
theorem witness_loads :
    ((Instr.entry (.ldaImm 0x80)).action = .load ∧ effectiveAddress start (.ldaImm 0x80) = none ∧
      ∃ t, exec (.ldaImm 0x80) start = .next t) ∧
    ((Instr.entry (.ldaAbsx 0xFFFB)).action = .load ∧ effectiveAddress start (.ldaAbsx 0xFFFB) = some 65535 ∧
      ∃ t, exec (.ldaAbsx 0xFFFB) start = .next t) ∧
    (∃ ea t, exec (.ldaAbsx 0xFFFC) start = .fault (.outOfRange ea t)) ∧ Reg.x ≠ (Instr.entry (.ldaImm 0x80)).reg :=
  ⟨⟨by decide, by decide, _, rfl⟩, ⟨by decide, by decide, _, rfl⟩, ⟨_, _, rfl⟩, by decide⟩

/-- StoreActionChangesOnlyTheStoredByte: a store to the last address, one whose write raises, another address. -/
theorem witness_stores :
    (Instr.entry (.staAbsx 0xFFFB)).action = .store ∧ (∃ t, exec (.staAbsx 0xFFFB) start = .next t) ∧
      effectiveAddress start (.staAbsx 0xFFFB) = some 65535 ∧ (0 : Nat) ≠ 65535 ∧
      (Instr.entry (.staAbsx 0xFFFC)).action = .store ∧
      ∃ ea t, exec (.staAbsx 0xFFFC) start = .fault (.outOfRange ea t) :=
  ⟨by decide, ⟨_, rfl⟩, by decide, by decide, by decide, ⟨_, _, rfl⟩⟩

/-- CostsAndAccessOrder: an instruction that completes, one that faults, and an unassigned opcode. -/
theorem witness_CostsAndAccessOrder :
    (start.startRun 1).run = some ⟨1, [], []⟩ ∧ (∃ t, exec (.ldaIndx 0x20) (start.startRun 1) = .next t) ∧
      (∃ f, exec (.ldaAbsx 0xFFFC) (start.startRun 1) = .fault f) ∧ (0 : Int) < 1 ∧
      lookupOpcode ((start.startRun 1).byteAt (start.startRun 1).pc) = none ∧
      ∃ t, handsOn (stepWith false (start.startRun 1)) t :=
  ⟨rfl, ⟨_, rfl⟩, ⟨_, rfl⟩, by decide, rfl, _, .inl rfl⟩

/-- OnlyEightOpcodesRaiseOutOfRange: a fault at the sum 65536, a next state at the sum 65535. -/
theorem witness_OnlyEightOpcodesRaiseOutOfRange :
    (∃ f, exec (.ldaAbsx 0xFFFC) start = .fault f) ∧ effectiveAddress start (.ldaAbsx 0xFFFC) = some 65536 ∧
      effectiveAddress start (.ldaAbsx 0xFFFB) = some 65535 ∧ ¬∃ f, exec (.ldaAbsx 0xFFFB) start = .fault f :=
  ⟨⟨_, rfl⟩, by decide, by decide, fun ⟨_, h⟩ => by cases h⟩

/-- FlagsDoNotInfluenceExecution: both clauses. -/
theorem witness_FlagsDoNotInfluenceExecution :
    (∃ t, exec (.ldaImm 0x00) start = .next t) ∧ ∃ ea t, exec (.ldaAbsx 0xFFFC) start = .fault (.outOfRange ea t) :=
  ⟨⟨_, rfl⟩, ⟨_, _, rfl⟩⟩

/-- PushWordStaysInStackPage: the addresses beside the page, and `sp[7:0] = 0` at the reset value. -/
theorem witness_PushWordStaysInStackPage : 0x00FF < 0x0100 ∧ 0x01FF < 0x0200 ∧ State.reset.sp.toNat % 256 = 0 := by decide

/-- RunsKeepTheStackPointer: a step that hands a state on. -/
theorem witness_RunsKeepTheStackPointer : ∃ t, handsOn (stepWith true (running [0x85, 0x10])) t := ⟨_, .inl rfl⟩

/-- A running state with an access and a diagnostic recorded meets the invariant. -/
theorem witness_inv :
    State.inv { start with mem := [(65535, 1)], run := some ⟨1, [⟨0xFFFF, 0x02⟩], [⟨.fetch, 65535, 0x02⟩]⟩ } :=
  ⟨by decide, fun r h => by cases h; decide⟩

theorem witness_inv_running (bytes : List Byte) (h : (placed start bytes []).mem.wf = true) : (running bytes).inv :=
  ⟨h, fun r hr => by cases hr; exact ⟨by simp, by simp⟩⟩

/-- StepKeepsTheInvariant: a completing step, and a fault's state. -/
theorem witness_StepKeepsTheInvariant :
    ((running [0x85, 0x10]).inv ∧ ∃ t, step (running [0x85, 0x10]) = .next t) ∧
      (running [0x9D, 0xFC, 0xFF]).inv ∧ ∃ t, handsOn (stepWith false (running [0x9D, 0xFC, 0xFF])) t :=
  ⟨⟨witness_inv_running _ (by decide), _, rfl⟩, witness_inv_running _ (by decide), _, .inr (.inl ⟨_, rfl⟩)⟩

/-- HostOperationsKeepTheInvariant: a host write to the last address. -/
theorem witness_HostOperationsKeepTheInvariant :
    start.inv ∧ ∃ reply t, hostOp false (.write 65535 0x01) start = some (reply, t) :=
  ⟨⟨by decide, fun r h => by cases h⟩, _, _, rfl⟩

/-- StepOvershootsToMinusFourAtMost: the floor -4 and a step that reaches it, E6 of 95_test_vectors.md. -/
theorem witness_StepOvershootsToMinusFourAtMost :
    (-4 : Int) ≤ -4 ∧ (running [0xA1, 0x20]).budgetAtLeast (-4) ∧
      ∃ t, handsOn (stepWith false (running [0xA1, 0x20])) t ∧ t.run.map (fun r => r.budget) = some (-4) :=
  ⟨by decide, fun r h => by cases h; decide, _, .inl rfl, by decide⟩

theorem witness_EveryAccessCostsOneCycle :
    (running [0xA1, 0x20]).run = some ⟨1, [], []⟩ ∧ (0 : Int) < 1 ∧
      ∃ t, handsOn (stepWith false (running [0xA1, 0x20])) t :=
  ⟨rfl, by decide, _, .inl rfl⟩

theorem witness_NonpositiveBudgetRunsNothing : start.runState = .idle ∧ (0 : Int) ≤ 0 ∧ (-3 : Int) ≤ 0 := by decide

theorem witness_ExecuteOneIsASingleStep :
    ∃ t, handsOn (stepWith false ((placed start [0xA1, 0x20] []).startRun 1)) t := ⟨_, .inl rfl⟩

/-- RunEndsIdleWithBoundedOvershoot: the smallest budget, a run that ends exhausted, the lenient setting. -/
theorem witness_RunEndsIdleWithBoundedOvershoot :
    (1 : Int) ≤ 1 ∧ ((placed start [0xA1, 0x20] []).execute false 1).status = .exhausted := by decide

/-- SplitRunEqualsSingleRun: 95_test_vectors.md 2.5, the split `execute(2)` then `execute(3)`, and a second budget of 0. -/
theorem witness_SplitRunEqualsSingleRun :
    let s := placed start [0xA9, 0x01, 0xA5, 0x10] []
    (s.execute false 2).status = .exhausted ∧ (s.execute false 2).budget = 0 ∧ (0 : Int) ≤ 3 ∧ (0 : Int) ≤ 0 := by decide

/-- ExecuteRepeatsTheStep: a run that ends exhausted and one that ends out of range. -/
theorem witness_ExecuteRepeatsTheStep :
    ((placed start [0xA9, 0x01] []).execute false 1).status = .exhausted ∧
      ((placed start [0xBD, 0xFC, 0xFF] []).execute false 1).status = .outOfRange 65536 := by decide

/-- TwoByteReadIsLittleEndianUnwrapped: the last address of the first clause, the first of the failing one. -/
theorem witness_TwoByteReadIsLittleEndianUnwrapped : 65534 < 65535 ∧ 65536 ≤ 65536 := by decide

end Sys2Proof.Tests
end

/-! The proofs of 10_state.md: reset and power-on (R43, R44), the getters (R36), the status byte (R33 to R35) and that
no flag influences execution (R47). -/

namespace Sys2Proof.Machine

/-! ### No flag influences execution -/

/-- A state that differs from `s` in its flags alone, as 10_state.md R47 compares them. -/
def State.withFlags (s : State) (f : Flags) : State := { s with flags := f }

@[simp] theorem State.getReg_withFlags (s : State) (f : Flags) (r : Reg) : (s.withFlags f).getReg r = s.getReg r := by
  cases r <;> rfl

@[simp] theorem effectiveAddress_withFlags (i : Instr) (s : State) (f : Flags) :
    effectiveAddress (s.withFlags f) i = effectiveAddress s i := by cases i <;> rfl

@[simp] theorem pointerAccesses_withFlags (i : Instr) (s : State) (f : Flags) :
    pointerAccesses (s.withFlags f) i = pointerAccesses s i := by cases i <;> rfl

theorem fetchesAt_withFlags (s : State) (f : Flags) (pc : Word) (n : Nat) :
    fetchesAt (s.withFlags f) pc n = fetchesAt s pc n := by
  induction n generalizing pc with
  | zero => rfl
  | succ n ih => exact congrArg (_ :: ·) (ih (pc + 1))

@[simp] theorem State.afterAccesses_withFlags (s : State) (f : Flags) (n : Nat) (further : List Access) :
    (s.withFlags f).afterAccesses n further = (s.afterAccesses n further).withFlags f := by
  simp only [State.afterAccesses, fetchesAt_withFlags]
  rfl

/-- A load gives Z and N the same values from either state, and the other flags stay as they were before it. -/
@[simp] theorem State.afterLoad_withFlags (s : State) (f : Flags) (r : Reg) (v : Byte) (n : Nat)
    (accesses : List Access) :
    (s.withFlags f).afterLoad r v n accesses = (s.afterLoad r v n accesses).withFlags (f.deriveZN v) := by
  simp only [State.afterLoad, State.afterAccesses_withFlags]
  cases r <;> rfl

@[simp] theorem State.afterLoadFrom_withFlags (s : State) (f : Flags) (r : Reg) (ea n : Nat)
    (accesses : List Access) :
    (s.withFlags f).afterLoadFrom r ea n accesses =
      (s.afterLoadFrom r ea n accesses).withFlags (f.deriveZN (s.mem.readByte ea)) :=
  s.afterLoad_withFlags f r _ n _

@[simp] theorem State.afterStore_withFlags (s : State) (f : Flags) (ea : Nat) (v : Byte) (n : Nat)
    (accesses : List Access) :
    (s.withFlags f).afterStore ea v n accesses = (s.afterStore ea v n accesses).withFlags f := by
  simp only [State.afterStore, State.afterAccesses_withFlags]
  rfl

@[simp] theorem State.resolved_withFlags (s : State) (f : Flags) (i : Instr) :
    (s.withFlags f).resolved i = (s.resolved i).withFlags f := by
  simp only [State.resolved, pointerAccesses_withFlags, State.afterAccesses_withFlags]

/-- An instruction run from two states that differ in their flags alone completes in both or stops both, and what it
leaves differs in the flags alone (10_state.md R47). -/
theorem exec_withFlags (i : Instr) (s : State) (f : Flags) :
    (∃ t g, exec i s = .next t ∧ exec i (s.withFlags f) = .next (t.withFlags g)) ∨
    (∃ ea t, exec i s = .fault (.outOfRange ea t) ∧
      exec i (s.withFlags f) = .fault (.outOfRange ea (t.withFlags f))) := by
  simp only [exec_eq, effectiveAddress_withFlags, pointerAccesses_withFlags, State.getReg_withFlags,
    State.afterLoad_withFlags, State.afterLoadFrom_withFlags, State.afterStore_withFlags, State.resolved_withFlags]
  cases effectiveAddress s i with
  | none => exact .inl ⟨_, _, rfl, rfl⟩
  | some ea =>
    by_cases hlt : ea < 65536
    · cases i.entry.action <;> simp only [hlt, if_true] <;> exact .inl ⟨_, _, rfl, rfl⟩
    · cases i.entry.action <;> simp only [hlt, if_false] <;> exact .inr ⟨_, _, rfl, rfl⟩

/-! ### The host interface on an idle engine -/

/-- While the engine is idle every operation of the host is possible (70_reset_and_hazards.md R234). -/
theorem hostOp_of_idle {s : State} (strict : Bool) (c : HostCmd) (h : s.runState = .idle) :
    hostOp strict c s = some (hostIdle strict s c) := by
  simp only [hostOp, h]

/-- Reset of an idle engine: what it was before leaves no trace (10_state.md R44). -/
theorem State.resetOp_of_idle {s : State} (h : s.runState = .idle) : s.resetOp = State.reset := by
  have hrun : s.run = none := s.runState_idle_iff.mp h
  simp only [State.resetOp, State.reset, State.reinitialize, hrun]

/-! ### The status byte -/

/-- The status byte bit by bit, bit 5 always 1 (10_state.md R33). -/
theorem Flags.pack_eq_concat (f : Flags) :
    f.pack =
      (((((((BitVec.ofBool f.n).concat f.v).concat true).concat f.b).concat f.d).concat f.i).concat f.z).concat f.c :=
  rfl

/-- The weights of the status byte's bits (10_state.md R33). -/
theorem Flags.pack_toNat (f : Flags) :
    f.pack.toNat = 128 * f.n.toNat + 64 * f.v.toNat + 32 + 16 * f.b.toNat + 8 * f.d.toNat + 4 * f.i.toNat +
      2 * f.z.toNat + f.c.toNat := by
  simp only [Flags.pack_eq_concat, BitVec.toNat_concat, BitVec.toNat_ofBool, Bool.toNat_true]
  omega

/-- The flags taken from the status byte of some flags are those flags (10_state.md R35). -/
@[simp] theorem Flags.unpack_pack (f : Flags) : Flags.unpack f.pack = f := by
  simp [Flags.unpack, Flags.pack_eq_concat, BitVec.getElem_concat]

/-- The status byte of the flags taken from a byte is that byte with bit 5 set (10_state.md R35). -/
theorem Flags.pack_unpack (b : Byte) : (Flags.unpack b).pack = b ||| 0x20#8 := by
  apply BitVec.eq_of_getLsbD_eq
  intro k hk
  interval_cases k <;> simp [Flags.unpack, Flags.pack_eq_concat, BitVec.getElem_concat]

/-! ### The obligations -/

/-- Settles O44: `exec_withFlags` says which of the two outcomes both runs have. -/
theorem flagsDoNotInfluenceExecution : Obligations.FlagsDoNotInfluenceExecution := by
  intro i s f
  obtain ⟨t, g, hs, hf⟩ | ⟨ea, t, hs, hf⟩ := exec_withFlags i s f
  · refine ⟨fun t' h => ?_, fun ea t' h => nomatch hs.symm.trans h⟩
    cases hs.symm.trans h
    exact ⟨g, hf⟩
  · refine ⟨fun t' h => (nomatch hs.symm.trans h), fun ea' t' h => ?_⟩
    cases hs.symm.trans h
    exact hf

/-- Settles O1: the values are those of `State.reset`, and reset of an idle engine gives that state. -/
theorem resetLeavesDocumentedState : Obligations.ResetLeavesDocumentedState := by
  refine ⟨rfl, rfl, fun r => ?_, fun f => ?_, rfl, fun a ha => State.memRead_of_lt _ ha, rfl, rfl, fun strict s h => ?_⟩
  · cases r <;> rfl
  · cases f <;> rfl
  · rw [hostOp_of_idle strict .reset h, hostIdle, State.resetOp_of_idle h]

/-- Settles O2: the values are those of `State.powerOn`, whose memory lists no byte. -/
theorem powerOnStateIsZero : Obligations.PowerOnStateIsZero := by
  refine ⟨rfl, rfl, fun r => ?_, fun f => ?_, fun a ha => State.memRead_of_lt _ ha, rfl⟩
  · cases r <;> rfl
  · cases f <;> rfl

/-- Settles O6: each getter is possible on an idle engine and answers its field. -/
theorem gettersChangeNothing : Obligations.GettersChangeNothing := by
  intro strict s h
  simp only [hostOp_of_idle strict _ h, hostIdle, State.getReg, State.getFlag, and_self]

/-- Settles O8: the weights are `Flags.pack_toNat`, the bits taken those of `Flags.unpack`. -/
theorem statusByteLayout : Obligations.StatusByteLayout :=
  ⟨fun s => s.flags.pack_toNat, fun _ _ => rfl,
    fun strict _ b h => ⟨hostOp_of_idle strict .getStatus h, hostOp_of_idle strict (.setStatus b) h⟩⟩

/-- Settles O9: packing and unpacking the flags are inverse but for bit 5, which always reads 1. -/
theorem statusByteRoundTrip : Obligations.StatusByteRoundTrip :=
  ⟨fun _ b => Flags.pack_unpack b, fun s => by simp only [State.setStatus, State.getStatus, Flags.unpack_pack]⟩

end Sys2Proof.Machine

/-! The proofs of 20_memory.md: the host's reads and writes (R61, R62, R64, R80), reinitialize (R63) and the charged
accesses (R75, R77, R79). -/

namespace Sys2Proof.Machine

/-! ### The host's accesses to memory -/

theorem Memory.readByte_writeByte_same (m : Memory) (a : Nat) (v : Byte) : (m.writeByte a v).readByte a = v := by
  rw [Memory.readByte_writeByte, if_pos rfl]

theorem Memory.readByte_writeByte_ne (m : Memory) {a b : Nat} (v : Byte) (h : b ≠ a) :
    (m.writeByte a v).readByte b = m.readByte b := by
  rw [Memory.readByte_writeByte, if_neg h]

/-- The AddressSpace write below the capacity (20_memory.md R62). -/
theorem State.memWrite_of_lt (s : State) {a : Nat} (v : Byte) (h : a < 65536) :
    s.memWrite a v = some { s with mem := s.mem.writeByte a v } := if_pos h

/-- The AddressSpace write at and beyond the capacity (20_memory.md R62, R64). -/
theorem State.memWrite_of_ge (s : State) {a : Nat} (v : Byte) (h : 65536 ≤ a) : s.memWrite a v = none :=
  if_neg (Nat.not_lt.mpr h)

section

variable {s : State} {a : Nat} (strict : Bool) (v : Byte) (hidle : s.runState = .idle)
include hidle

theorem hostOp_read_of_lt (ha : a < 65536) :
    hostOp strict (.read a) s = some (.byte (s.mem.readByte a), s) := by
  simp only [hostOp_of_idle strict _ hidle, hostIdle, s.memRead_of_lt ha]

theorem hostOp_read_of_ge (ha : 65536 ≤ a) : hostOp strict (.read a) s = some (.outOfRange a, s) := by
  simp only [hostOp_of_idle strict _ hidle, hostIdle, s.memRead_of_ge ha]

theorem hostOp_write_of_lt (ha : a < 65536) :
    hostOp strict (.write a v) s = some (.byte v, { s with mem := s.mem.writeByte a v }) := by
  simp only [hostOp_of_idle strict _ hidle, hostIdle, s.memWrite_of_lt v ha]

theorem hostOp_write_of_ge (ha : 65536 ≤ a) : hostOp strict (.write a v) s = some (.outOfRange a, s) := by
  simp only [hostOp_of_idle strict _ hidle, hostIdle, s.memWrite_of_ge v ha]

end

/-! ### The charged accesses -/

/-- A charge to a run in progress: one cycle less, one access more (41_engine.md R135, 20_memory.md R73). -/
theorem State.charge_of_run {s : State} {r : Run} (access : Access) (h : s.run = some r) :
    s.charge access = { s with run := some { r with budget := r.budget - 1, accesses := r.accesses ++ [access] } } := by
  simp only [State.charge, h, Option.map_some, Run.charge, Config.accessCost]

/-- `pc` moves to the next address, from the last one to the first (20_memory.md R75, D5). -/
theorem State.fetch8_pc_toNat (s : State) : s.fetch8.2.pc.toNat = (s.pc.toNat + 1) % 65536 := by
  rw [State.fetch8_pc, BitVec.toNat_add]
  rfl

theorem State.read8_of_lt (s : State) {a : Nat} (h : a < 65536) :
    s.read8 a = some (s.mem.readByte a, s.charge ⟨.dataRead, a, s.mem.readByte a⟩) := by
  simp only [State.read8, s.memRead_of_lt h]

theorem State.read8_of_ge (s : State) {a : Nat} (h : 65536 ≤ a) : s.read8 a = none := by
  simp only [State.read8, s.memRead_of_ge h]

theorem State.write8_of_lt (s : State) {a : Nat} (v : Byte) (h : a < 65536) :
    s.write8 a v = some ({ s with mem := s.mem.writeByte a v }.charge ⟨.dataWrite, a, v⟩) := by
  simp only [State.write8, s.memWrite_of_lt v h]

theorem State.write8_of_ge (s : State) {a : Nat} (v : Byte) (h : 65536 ≤ a) : s.write8 a v = none := by
  simp only [State.write8, s.memWrite_of_ge v h]

/-! ### The obligations -/

/-- Settles O4: both operations below and from the capacity on; the byte read after the write is that of
`Memory.readByte_writeByte_same`. -/
theorem memoryRoundTrip : Obligations.MemoryRoundTrip := by
  intro strict s a v hidle
  refine ⟨fun ha => ?_, fun ha => ⟨hostOp_write_of_ge strict v hidle ha, hostOp_read_of_ge strict hidle ha⟩⟩
  have hidle' : { s with mem := s.mem.writeByte a v }.runState = .idle := hidle
  refine ⟨hostOp_read_of_lt strict hidle ha, _, hostOp_write_of_lt strict v hidle ha, ?_,
    fun _ hne => s.mem.readByte_writeByte_ne v hne, rfl⟩
  rw [hostOp_read_of_lt strict hidle' ha, Memory.readByte_writeByte_same]

/-- Settles O5: the memory that reinitialize leaves lists no byte. -/
theorem reinitializeClearsOnlyMemory : Obligations.ReinitializeClearsOnlyMemory :=
  fun strict _ hidle => ⟨_, hostOp_of_idle strict .reinitialize hidle, Memory.readByte_nil, rfl⟩

/-- Settles O10: each primitive makes its access and one charge, which `State.charge_of_run` writes out. -/
theorem chargedAccessPrimitives : Obligations.ChargedAccessPrimitives := by
  intro s r a v hrun
  refine ⟨⟨s.fetch8_byte, s.fetch8_pc_toNat, ?fetch⟩,
    fun ha => ⟨?read, _, s.write8_of_lt v ha, s.mem.readByte_writeByte_same a v,
      fun _ hne => s.mem.readByte_writeByte_ne v hne, ?write⟩,
    fun ha => ⟨s.read8_of_ge ha, s.write8_of_ge v ha⟩⟩
  case fetch => exact State.charge_of_run (s := { s with pc := s.pc + 1 }) _ hrun
  case read => rw [s.read8_of_lt ha, State.charge_of_run _ hrun]
  case write => exact State.charge_of_run (s := { s with mem := s.mem.writeByte a v }) _ hrun

end Sys2Proof.Machine

/-! The proofs of 30_encoding.md: decoding an encoding (R90 to R94) and the instruction whose bytes straddle the top of
memory (R99). -/

namespace Sys2Proof

/-! ### Decoding an encoding -/

/-- The table's row of an instruction makes that instruction of its operand bytes: a byte as it is, a word from its low
and high byte (30_encoding.md R92, R93). -/
theorem lookupOpcode_opcode (i : Instr) (rest : List Byte) :
    ∃ shape, lookupOpcode i.opcode = some shape ∧ decodeOperands shape (i.operandBytes ++ rest) = .instr i rest := by
  cases i with
  | ldaImm | ldaZp | ldaZpx | ldaIndx | ldaIndy | ldxImm | ldxZp | ldxZpy | ldyImm | ldyZp | ldyZpx | staZp | staZpx
  | staIndx | staIndy | stxZp | stxZpy | styZp | styZpx => exact ⟨_, rfl, rfl⟩
  | ldaAbs w | ldaAbsx w | ldaAbsy w | ldxAbs w | ldxAbsy w | ldyAbs w | ldyAbsx w | staAbs w | staAbsx w | staAbsy w
  | stxAbs w | styAbs w => exact ⟨_, rfl, by simp [Instr.operandBytes, decodeOperands]⟩

/-- An instruction's bytes decode to it, whatever bytes follow (30_encoding.md R90, R96). -/
theorem decode_encode_append (i : Instr) (rest : List Byte) : decode (encode i ++ rest) = .instr i rest := by
  obtain ⟨shape, hlookup, hoperands⟩ := lookupOpcode_opcode i rest
  simp only [encode, List.cons_append, decode, hlookup, hoperands]

end Sys2Proof

namespace Sys2Proof.Machine

/-! ### The step at decoded bytes, and where it leaves `pc` -/

/-- With fuel, a step at bytes that decode to an instruction is exec of it, strict or not (41_engine.md R131, R132). -/
theorem stepWith_of_decode {s : State} {i : Instr} {rest : List Byte} (strict : Bool) (hfuel : s.fueled)
    (hdecode : decode s.codeBytes = .instr i rest) : stepWith strict s = exec i s := by
  rw [stepWith_fueled hfuel, iterate, hdecode]

section

variable (s : State) (n : Nat) (accesses : List Access)

@[simp] theorem State.afterLoad_pc (r : Reg) (v : Byte) : (s.afterLoad r v n accesses).pc = s.pc + BitVec.ofNat 16 n := by
  simp only [State.afterLoad, State.setReg_pc, State.afterAccesses_pc]

@[simp] theorem State.afterLoadFrom_pc (r : Reg) (ea : Nat) :
    (s.afterLoadFrom r ea n accesses).pc = s.pc + BitVec.ofNat 16 n := s.afterLoad_pc n _ r _

@[simp] theorem State.afterStore_pc (ea : Nat) (v : Byte) :
    (s.afterStore ea v n accesses).pc = s.pc + BitVec.ofNat 16 n := rfl

@[simp] theorem State.resolved_pc (i : Instr) : (s.resolved i).pc = s.pc + BitVec.ofNat 16 i.length := rfl

end

/-- An instruction leaves `pc` past its bytes, modulo 65536, whether it completes or stops (41_engine.md R142, D5). -/
theorem pc_of_handsOn_exec {i : Instr} {s t : State} (h : handsOn (exec i s) t) :
    t.pc = s.pc + BitVec.ofNat 16 i.length := by
  obtain ⟨v, -, hlength, -, -, -, -, rfl⟩ | ⟨ea, -, -, -, -, rfl⟩ | ⟨ea, -, -, -, -, rfl⟩ | ⟨ea, -, -, -, rfl⟩ :=
    handsOn_exec h
  · rw [State.afterLoad_pc, hlength]
  · exact s.afterLoadFrom_pc ..
  · exact s.afterStore_pc ..
  · exact s.resolved_pc i

/-! ### The obligation -/

/-- Settles O20: the three bytes from 0xFFFE on, across the wrap, are those the step decodes, and 0xFFFE plus 3 is
0x0001 modulo 65536. -/
theorem instructionStraddlesTheTop : Obligations.InstructionStraddlesTheTop := by
  intro s i hfuel hlength hpc hbytes
  have hcode : s.codeBytes = encode i ++ [] := by
    rw [State.codeBytes, hpc, List.append_nil, ← hbytes]
    rfl
  have hstep : step s = exec i s :=
    stepWith_of_decode Config.strictUnhandled hfuel (hcode ▸ decode_encode_append i [])
  refine ⟨hstep, fun t ht => ?_⟩
  rw [pc_of_handsOn_exec (hstep ▸ ht), hpc, hlength]
  rfl

end Sys2Proof.Machine

/-! The proof of 40_addressing_modes.md: the resolvers of zero page, zero page indexed by X and absolute (R112, R113,
R115). -/

namespace Sys2Proof.Machine

/-- The two fetches of a word at `pc` (20_memory.md R76). -/
theorem State.fetch16_eq (s : State) : s.fetch16.2 = s.afterAccesses 2 [] := s.fetch8_afterAccesses_one

/-- Settles O22: each address is the model's byte, 8-bit sum or assembled word, as a number, and each resolver's state is
that of its one or two fetches. -/
theorem resolversOfZpZpxAbs : Obligations.ResolversOfZpZpxAbs := by
  intro s b h
  refine ⟨?zp, ?zpx, ?abs⟩
  case zp => rw [resolveZp, s.fetch8_eq]
  case zpx => rw [resolveZpx, zeroPageSum_toNat, s.fetch8_eq]
  case abs =>
    have hword : (h ++ b : Word).toNat = h.toNat * 256 + b.toNat := assembleWord_toNat b h
    rw [resolveAbs, hword, s.fetch16_eq]

end Sys2Proof.Machine

/-! The proofs of 41_engine.md: the cost and the access order of every iteration kind (R141) and the unassigned opcode
(R134). -/

namespace Sys2Proof

/-! ### The table of costs and access kinds -/

/-- The table's cost of an instruction is the number of its accesses, each costing one cycle (41_engine.md R135,
R141). -/
theorem Entry.cycles_eq_length (e : Entry) :
    e.mode.cycles = ((e.mode.kindsBeforeData ++ e.dataKind).length : Int) := by
  obtain ⟨action, reg, mode⟩ := e
  cases mode <;> cases action <;> rfl

/-- Only in mode IMM is there no data access to leave out. -/
theorem Mode.cycles_eq_length_add_one {m : Mode} (h : m ≠ .imm) : m.cycles = (m.kindsBeforeData.length : Int) + 1 := by
  cases m with
  | imm => exact absurd rfl h
  | zp | zpx | zpy | abs | absx | absy | indx | indy => rfl

/-- The kind of the data access an action makes (41_engine.md R141, table). -/
def Action.dataKind : Action → Machine.AccessKind
  | .load => .dataRead
  | .store => .dataWrite

theorem Entry.dataKind_of_mode_ne_imm {e : Entry} (h : e.mode ≠ .imm) : e.dataKind = [e.action.dataKind] := by
  obtain ⟨action, reg, mode⟩ := e
  cases mode with
  | imm => exact absurd rfl h
  | zp | zpx | zpy | abs | absx | absy | indx | indy => cases action <;> rfl

end Sys2Proof

namespace Sys2Proof.Machine

/-! ### The accesses an instruction makes -/

/-- An instruction with an effective address is not of mode IMM (40_addressing_modes.md R111). -/
theorem mode_ne_imm_of_effectiveAddress {i : Instr} {s : State} {ea : Nat} (h : effectiveAddress s i = some ea) :
    i.entry.mode ≠ .imm := by
  cases i <;> simp_all [effectiveAddress, Instr.entry]

/-- The accesses of an instruction before its data access have the kinds of the table, in its order (41_engine.md
R141). -/
theorem kinds_before_data (i : Instr) (s : State) :
    (fetchesAt s s.pc i.length ++ pointerAccesses s i).map (fun access => access.kind) =
      i.entry.mode.kindsBeforeData := by
  cases i <;> rfl

/-- With the data access of its action after them, they have all the kinds of the table (41_engine.md R141). -/
theorem kinds_with_data {i : Instr} (s : State) (data : Access) {ea : Nat} (hea : effectiveAddress s i = some ea)
    (hkind : data.kind = i.entry.action.dataKind) :
    (fetchesAt s s.pc i.length ++ (pointerAccesses s i ++ [data])).map (fun access => access.kind) =
      i.entry.mode.kindsBeforeData ++ i.entry.dataKind := by
  rw [← List.append_assoc, List.map_append, kinds_before_data,
    Entry.dataKind_of_mode_ne_imm (mode_ne_imm_of_effectiveAddress hea), ← hkind]
  rfl

/-- Accesses of the kinds `kinds` in a run in progress: each costs one cycle and joins the record in order (41_engine.md
R135, 20_memory.md R73). -/
theorem State.afterAccesses_run_of_kinds {s : State} {r : Run} {n : Nat} {further : List Access}
    {kinds : List AccessKind} (hrun : s.run = some r)
    (hkinds : (fetchesAt s s.pc n ++ further).map (fun access => access.kind) = kinds) :
    ∃ accesses, (s.afterAccesses n further).run =
        some { r with budget := r.budget - kinds.length, accesses := r.accesses ++ accesses } ∧
      accesses.map (fun access => access.kind) = kinds := by
  refine ⟨fetchesAt s s.pc n ++ further, ?_, hkinds⟩
  rw [State.afterAccesses_run, hrun, ← hkinds, List.length_map]
  rfl

@[simp] theorem State.afterLoad_run (s : State) (r : Reg) (v : Byte) (n : Nat) (accesses : List Access) :
    (s.afterLoad r v n accesses).run = (s.afterAccesses n accesses).run := by
  simp only [State.afterLoad, State.setReg_run]

@[simp] theorem State.afterLoadFrom_run (s : State) (r : Reg) (ea n : Nat) (accesses : List Access) :
    (s.afterLoadFrom r ea n accesses).run =
      (s.afterAccesses n (accesses ++ [⟨.dataRead, ea, s.mem.readByte ea⟩])).run := s.afterLoad_run ..

@[simp] theorem State.afterStore_run (s : State) (ea : Nat) (v : Byte) (n : Nat) (accesses : List Access) :
    (s.afterStore ea v n accesses).run = (s.afterAccesses n (accesses ++ [⟨.dataWrite, ea, v⟩])).run := rfl

/-- A completed instruction leaves the run its accesses leave: those before the data access, then the data access, of
the table's kinds (41_engine.md R141). -/
theorem accesses_of_exec_next {i : Instr} {s t : State} (h : exec i s = .next t) :
    ∃ n further, t.run = (s.afterAccesses n further).run ∧
      (fetchesAt s s.pc n ++ further).map (fun access => access.kind) =
        i.entry.mode.kindsBeforeData ++ i.entry.dataKind := by
  obtain ⟨v, -, -, hmode, -, -, -, rfl⟩ | ⟨ea, hea, -, haction, -, rfl⟩ | ⟨ea, hea, -, haction, -, rfl⟩ |
    ⟨ea, -, -, hfault, -⟩ := handsOn_exec (handsOn_of_next h)
  · refine ⟨2, [], s.afterLoad_run .., ?_⟩
    simp only [hmode, Entry.dataKind]
    rfl
  · exact ⟨i.length, _, s.afterLoadFrom_run .., kinds_with_data s ⟨.dataRead, ea, _⟩ hea (haction ▸ rfl)⟩
  · exact ⟨i.length, _, s.afterStore_run .., kinds_with_data s ⟨.dataWrite, ea, _⟩ hea (haction ▸ rfl)⟩
  · exact nomatch h.symm.trans hfault

/-- The one way an instruction stops: OutOfRange of its effective address, 65536 or more, where its data access would be
made (41_engine.md R142). -/
theorem fault_of_exec {i : Instr} {s : State} {f : Fault} (h : exec i s = .fault f) :
    ∃ ea, effectiveAddress s i = some ea ∧ 65536 ≤ ea ∧ f = .outOfRange ea (s.resolved i) := by
  obtain ⟨t, ht⟩ := exec_hands_on i s
  obtain ⟨_, -, -, -, -, -, hnext, -⟩ | ⟨_, -, -, -, hnext, -⟩ | ⟨_, -, -, -, hnext, -⟩ |
    ⟨ea, hea, hge, hfault, rfl⟩ := handsOn_exec ht
  · exact nomatch h.symm.trans hnext
  · exact nomatch h.symm.trans hnext
  · exact nomatch h.symm.trans hnext
  · cases h.symm.trans hfault
    exact ⟨ea, hea, hge, rfl⟩

/-! ### The iteration of an unassigned opcode -/

/-- With fuel, a step at an unassigned opcode takes the unhandled path, strict or not (41_engine.md R132, R134). -/
theorem stepWith_of_unassigned {s : State} (strict : Bool) (hfuel : s.fueled)
    (hlookup : lookupOpcode (s.byteAt s.pc) = none) : stepWith strict s = unhandled strict s := by
  have hdecode : decode s.codeBytes = .unassigned (s.byteAt s.pc) :=
    (decode_unassigned_iff _ _ _).mpr ⟨hlookup, rfl⟩
  rw [stepWith_fueled hfuel, iterate, hdecode]

/-- The unhandled path in a run in progress: the opcode fetch charged and the diagnostic added (41_engine.md R134). -/
theorem State.afterUnhandled_of_run {s : State} {r : Run} (hrun : s.run = some r) :
    s.afterUnhandled =
      { s with
        pc := s.pc + 1
        run := some
          { budget := r.budget - 1
            diagnostics := r.diagnostics ++ [⟨s.pc, s.byteAt s.pc⟩]
            accesses := r.accesses ++ [⟨.fetch, s.pc.toNat, s.byteAt s.pc⟩] } } := by
  simp only [State.afterUnhandled, State.emit, State.afterAccesses, hrun, Option.map_some]
  rfl

/-! ### The obligations -/

/-- Settles O42: the kinds are those of `accesses_of_exec_next` and `kinds_before_data`, the cost is their number, and
`pc` moves as `pc_of_handsOn_exec` says. -/
theorem costsAndAccessOrder : Obligations.CostsAndAccessOrder := by
  intro i s r hrun
  refine ⟨fun t h => ?completed, fun f h => ?raised, fun strict t hfuel hlookup h => ?unassigned⟩
  case completed =>
    obtain ⟨n, further, ht, hkinds⟩ := accesses_of_exec_next h
    obtain ⟨accesses, hafter, hmap⟩ := State.afterAccesses_run_of_kinds hrun hkinds
    rw [← Entry.cycles_eq_length] at hafter
    exact ⟨accesses, ht.trans hafter, hmap, pc_of_handsOn_exec (handsOn_of_next h)⟩
  case raised =>
    obtain ⟨ea, hea, -, rfl⟩ := fault_of_exec h
    obtain ⟨accesses, hafter, hmap⟩ := State.afterAccesses_run_of_kinds hrun (kinds_before_data i s)
    have hcost : i.entry.mode.cycles - 1 = (i.entry.mode.kindsBeforeData.length : Int) := by
      rw [Mode.cycles_eq_length_add_one (mode_ne_imm_of_effectiveAddress hea), Int.add_sub_cancel]
    exact ⟨ea, s.resolved i, accesses, rfl, hcost ▸ hafter, hmap, s.resolved_pc i⟩
  case unassigned =>
    rw [stepWith_of_unassigned strict ⟨r, hrun, hfuel⟩ hlookup, handsOn_unhandled,
      State.afterUnhandled_of_run hrun] at h
    exact h ▸ ⟨_, rfl, rfl, List.map_append, rfl⟩

/-- Settles O17: the step is the unhandled path, whose state `State.afterUnhandled_of_run` writes out. -/
theorem unassignedOpcodeIsConsumed : Obligations.UnassignedOpcodeIsConsumed := by
  intro s r hrun hfuel hlookup
  have hstep (strict : Bool) : stepWith strict s = unhandled strict s :=
    stepWith_of_unassigned strict ⟨r, hrun, hfuel⟩ hlookup
  simp only [← State.afterUnhandled_of_run hrun]
  exact ⟨hstep false, hstep false, hstep true⟩

end Sys2Proof.Machine

/-! The proofs of 42_load.md: the load action (R150) and the result of each load (R151 to R168). -/

namespace Sys2Proof

/-! ### Decoding an opcode byte and its operand bytes -/

/-- An opcode of format F2 and a byte decode to its instruction on that byte (30_encoding.md R90). -/
theorem decode_of_lookup_f2 {op : Byte} {make : Byte → Instr} (hlookup : lookupOpcode op = some (.f2 make)) (b : Byte)
    (rest : List Byte) : decode (op :: b :: rest) = .instr (make b) rest := by
  simp only [decode, hlookup, decodeOperands]

/-- An opcode of format F3 and two bytes decode to its instruction on their word, the low byte first (30_encoding.md R90,
R92). -/
theorem decode_of_lookup_f3 {op : Byte} {make : Word → Instr} (hlookup : lookupOpcode op = some (.f3 make)) (l h : Byte)
    (rest : List Byte) : decode (op :: l :: h :: rest) = .instr (make (h ++ l)) rest := by
  simp only [decode, hlookup, decodeOperands, assembleWord]

/-- A load reads one data byte, none in mode IMM (41_engine.md R141, table). -/
theorem Entry.count_dataRead_of_load {e : Entry} (h : e.action = .load) :
    (e.mode.kindsBeforeData ++ e.dataKind).count .dataRead = if e.mode = .imm then 0 else 1 := by
  obtain ⟨action, reg, mode⟩ := e
  cases h
  cases mode <;> rfl

end Sys2Proof

namespace Sys2Proof.Machine

/-! ### The effective addresses as numbers -/

theorem byte_toNat_lt_capacity (b : Byte) : b.toNat < 65536 := lt_trans b.isLt (by decide)

theorem State.wordAt_lt_capacity (s : State) (a : Nat) : s.wordAt a < 65536 := by
  have hlow := (s.mem.readByte a).isLt
  have hhigh := (s.mem.readByte (a + 1)).isLt
  simp only [State.wordAt]
  omega

/-- The address INDX gives: the word at the pointer, which wraps in the zero page (40_addressing_modes.md R118). -/
theorem resolveIndx_address (b : Byte) (s : State) : (resolveIndx b s).1 = s.wordAt (zeroPageSum b s.x).toNat :=
  s.pointerWord_toNat (zeroPageSum b s.x)

/-- The address INDY gives: the word at the pointer plus Y, not reduced (40_addressing_modes.md R119, D4). -/
theorem resolveIndy_address (b : Byte) (s : State) : (resolveIndy b s).1 = s.wordAt b.toNat + s.y.toNat :=
  congrArg (· + s.y.toNat) (s.pointerWord_toNat b)

/-! ### What a load does: one equation per way it can end -/

/-- An instruction without an effective address is a load in mode IMM: of its operand byte (42_load.md R150). -/
theorem exec_of_no_address {i : Instr} {s : State} (hea : effectiveAddress s i = none) :
    exec i s = .next (s.afterLoad i.entry.reg (i.operandBytes.headD 0) 2 []) := by
  simp only [exec_eq, hea]

/-- A load from an address below 65536 completes (42_load.md R150). -/
theorem exec_load_of_lt {i : Instr} {s : State} {ea : Nat} (hload : i.entry.action = .load)
    (hea : effectiveAddress s i = some ea) (hlt : ea < 65536) :
    exec i s = .next (s.afterLoadFrom i.entry.reg ea i.length (pointerAccesses s i)) := by
  simp only [exec_eq, hea, hload, hlt, if_true]

/-- An instruction whose effective address is 65536 or more stops before its data access (41_engine.md R142, D10). -/
theorem exec_of_ge {i : Instr} {s : State} {ea : Nat} (hea : effectiveAddress s i = some ea) (hge : 65536 ≤ ea) :
    exec i s = .fault (.outOfRange ea (s.resolved i)) := by
  rw [exec_eq, hea]
  cases i.entry.action <;> exact if_neg (Nat.not_lt.mpr hge)

/-! ### What a load leaves in the registers, the flags and the run -/

/-- N of a loaded byte, its bit 7, says whether it is 128 or more (10_state.md R32). -/
theorem byte_getLsbD_seven (v : Byte) : v.getLsbD 7 = decide (128 ≤ v.toNat) := v.msb_eq_decide

@[simp] theorem State.getReg_afterLoad_same (s : State) (r : Reg) (v : Byte) (n : Nat) (accesses : List Access) :
    (s.afterLoad r v n accesses).getReg r = v := by cases r <;> rfl

theorem State.afterLoad_flags (s : State) (r : Reg) (v : Byte) (n : Nat) (accesses : List Access) :
    (s.afterLoad r v n accesses).flags = { s.flags with z := decide (v = 0#8), n := decide (128 ≤ v.toNat) } := by
  simp only [State.afterLoad, State.setReg_flags, State.afterAccesses_flags, byte_getLsbD_seven]

/-- The accesses of a kind, counted in the record of kinds (20_memory.md R73). -/
theorem Run.countOf_eq_count (r : Run) (kind : AccessKind) :
    r.countOf kind = (r.accesses.map fun access => access.kind).count kind := by
  rw [List.count, List.countP_map, List.countP_eq_length_filter]
  rfl

/-- Accesses add to the count of a kind as often as it is theirs (20_memory.md R73). -/
theorem State.countOf_afterAccesses (s : State) (n : Nat) (further : List Access) (kind : AccessKind) :
    (s.afterAccesses n further).run.map (fun r => r.countOf kind) =
      s.run.map fun r =>
        r.countOf kind + ((fetchesAt s s.pc n ++ further).map fun access => access.kind).count kind := by
  simp only [State.afterAccesses_run, Option.map_map, Function.comp_def, Run.countOf_eq_count, List.map_append,
    List.count_append]

/-- A completed load reads one data byte, none in mode IMM (42_load.md R150, 41_engine.md R141). -/
theorem countOf_dataRead_of_load {i : Instr} {s t : State} (hload : i.entry.action = .load) (h : exec i s = .next t) :
    t.run.map (fun r => r.countOf .dataRead) =
      s.run.map fun r => r.countOf .dataRead + if i.entry.mode = .imm then 0 else 1 := by
  obtain ⟨n, further, hrun, hkinds⟩ := accesses_of_exec_next h
  rw [hrun, State.countOf_afterAccesses, hkinds, Entry.count_dataRead_of_load hload]

/-- A completed load loads one byte: the operand byte of mode IMM or the byte at the effective address (42_load.md
R150). -/
theorem afterLoad_of_load {i : Instr} {s t : State} (hload : i.entry.action = .load) (h : exec i s = .next t) :
    ∃ v n accesses, t = s.afterLoad i.entry.reg v n accesses ∧
      (effectiveAddress s i = none → i.operandBytes = [v]) ∧
      ∀ ea, effectiveAddress s i = some ea → v = s.mem.readByte ea := by
  obtain ⟨v, hea, -, -, -, hbytes, -, ht⟩ | ⟨ea, hea, -, -, -, ht⟩ | ⟨_, -, -, hstore, -⟩ | ⟨_, -, -, hfault, -⟩ :=
    handsOn_exec (handsOn_of_next h)
  · exact ⟨v, _, _, ht, fun _ => hbytes, fun ea' hea' => nomatch hea.symm.trans hea'⟩
  · refine ⟨_, _, _, ht, fun hnone => (nomatch hea.symm.trans hnone), fun ea' hea' => ?_⟩
    cases hea.symm.trans hea'
    rfl
  · exact nomatch hload.symm.trans hstore
  · exact nomatch h.symm.trans hfault

/-! ### The obligations -/

/-- Settles O29: the effective address is the unreduced sum, and it alone decides how the load ends. -/
theorem loadAbsoluteIndexedResult : Obligations.LoadAbsoluteIndexedResult :=
  ⟨fun l h rest => ⟨decode_of_lookup_f3 rfl l h rest, decode_of_lookup_f3 rfl l h rest,
      decode_of_lookup_f3 rfl l h rest, decode_of_lookup_f3 rfl l h rest⟩,
    fun _ _ => ⟨fun hlt => ⟨exec_load_of_lt rfl rfl hlt, exec_load_of_lt rfl rfl hlt⟩,
      fun hlt => ⟨exec_load_of_lt rfl rfl hlt, exec_load_of_lt rfl rfl hlt⟩,
      fun hge => ⟨exec_of_ge rfl hge, exec_of_ge rfl hge⟩,
      fun hge => ⟨exec_of_ge rfl hge, exec_of_ge rfl hge⟩⟩⟩

/-- Settles O30: the pointer of the statement is the model's 8-bit sum, and the word at it is below 65536. -/
theorem loadIndirectXResult : Obligations.LoadIndirectXResult := by
  intro b rest s
  simp only [← zeroPageSum_toNat, BitVec.ofNat_toNat, BitVec.toNat_setWidth_of_le, Nat.reduceLeDiff]
  exact ⟨decode_of_lookup_f2 rfl b rest,
    exec_load_of_lt rfl (congrArg some (resolveIndx_address b s)) (s.wordAt_lt_capacity _)⟩

/-- Settles O31: the effective address is the word at the pointer plus Y, and it alone decides how the load ends. -/
theorem loadIndirectYResult : Obligations.LoadIndirectYResult := by
  intro b rest s
  simp only [BitVec.ofNat_toNat, BitVec.toNat_setWidth_of_le, Nat.reduceLeDiff]
  have hea : effectiveAddress s (.ldaIndy b) = some (s.wordAt b.toNat + s.y.toNat) :=
    congrArg some (resolveIndy_address b s)
  exact ⟨decode_of_lookup_f2 rfl b rest, fun hlt => exec_load_of_lt rfl hea hlt, fun hge => exec_of_ge hea hge⟩

/-- Settles O32: a completed load is a `State.afterLoad` of the byte it loads, and one that raises leaves the state in
which its data access would be made. -/
theorem loadActionWritesRegisterZAndN : Obligations.LoadActionWritesRegisterZAndN := by
  intro i s hload
  refine ⟨fun t h => ?completed, fun ea t h => ?raised⟩
  case completed =>
    have hcount := countOf_dataRead_of_load hload h
    obtain ⟨v, n, accesses, rfl, hoperand, hmemory⟩ := afterLoad_of_load hload h
    rw [State.getReg_afterLoad_same]
    exact ⟨hoperand, hmemory, s.afterLoad_flags .., hcount⟩
  case raised =>
    obtain ⟨_, -, -, hf⟩ := fault_of_exec h
    cases hf
    exact ⟨fun r => s.getReg_afterAccesses r .., rfl⟩

/-- Settles O23: in mode IMM there is no effective address, and the operand byte is loaded. -/
theorem ldaImmediateResult : Obligations.LdaImmediateResult :=
  fun b rest _ => ⟨decode_of_lookup_f2 rfl b rest, exec_of_no_address rfl⟩

/-- Settles O24, as `ldaImmediateResult` for the two index registers. -/
theorem loadIndexImmediateResult : Obligations.LoadIndexImmediateResult :=
  fun b rest _ => ⟨⟨decode_of_lookup_f2 rfl b rest, exec_of_no_address rfl⟩,
    decode_of_lookup_f2 rfl b rest, exec_of_no_address rfl⟩

/-- Settles O25: the effective address is the operand byte, which is below 65536. -/
theorem ldaZeroPageResult : Obligations.LdaZeroPageResult :=
  fun b rest _ => ⟨decode_of_lookup_f2 rfl b rest, exec_load_of_lt rfl rfl (byte_toNat_lt_capacity b)⟩

/-- Settles O26, as `ldaZeroPageResult` for the two index registers. -/
theorem loadIndexZeroPageResult : Obligations.LoadIndexZeroPageResult :=
  fun b rest _ => ⟨⟨decode_of_lookup_f2 rfl b rest, exec_load_of_lt rfl rfl (byte_toNat_lt_capacity b)⟩,
    decode_of_lookup_f2 rfl b rest, exec_load_of_lt rfl rfl (byte_toNat_lt_capacity b)⟩

/-- Settles O27: the effective address is the 8-bit sum, which is the sum modulo 256. -/
theorem loadZeroPageIndexedResult : Obligations.LoadZeroPageIndexedResult := by
  intro b rest s
  simp only [← zeroPageSum_toNat]
  exact ⟨⟨decode_of_lookup_f2 rfl b rest, exec_load_of_lt rfl rfl (byte_toNat_lt_capacity _)⟩,
    ⟨decode_of_lookup_f2 rfl b rest, exec_load_of_lt rfl rfl (byte_toNat_lt_capacity _)⟩,
    decode_of_lookup_f2 rfl b rest, exec_load_of_lt rfl rfl (byte_toNat_lt_capacity _)⟩

/-- Settles O28: the effective address is the operand word, which is below 65536. -/
theorem loadAbsoluteResult : Obligations.LoadAbsoluteResult :=
  ⟨fun l h rest => ⟨decode_of_lookup_f3 rfl l h rest, decode_of_lookup_f3 rfl l h rest,
      decode_of_lookup_f3 rfl l h rest⟩,
    fun w _ => ⟨exec_load_of_lt rfl rfl w.isLt, exec_load_of_lt rfl rfl w.isLt, exec_load_of_lt rfl rfl w.isLt⟩⟩

end Sys2Proof.Machine

/-! The proofs of 43_store.md: the store action (R170) and the result of each store (R171 to R183). -/

namespace Sys2Proof

/-! ### The accesses of a store, by the table -/

/-- A store reads no data byte (41_engine.md R141, table). -/
theorem Entry.count_dataRead_of_store {e : Entry} (h : e.action = .store) :
    (e.mode.kindsBeforeData ++ e.dataKind).count .dataRead = 0 := by
  obtain ⟨action, reg, mode⟩ := e
  cases h
  cases mode <;> rfl

/-- A store writes one data byte: no store has mode IMM (41_engine.md R141, table). -/
theorem Entry.count_dataWrite_of_store {e : Entry} (h : e.action = .store) (hmode : e.mode ≠ .imm) :
    (e.mode.kindsBeforeData ++ e.dataKind).count .dataWrite = 1 := by
  rw [Entry.dataKind_of_mode_ne_imm hmode, h]
  cases e.mode <;> rfl

end Sys2Proof

namespace Sys2Proof.Machine

/-! ### What a store does -/

/-- A store to an address below 65536 completes; one to any other stops as `exec_of_ge` says (43_store.md R170). -/
theorem exec_store_of_lt {i : Instr} {s : State} {ea : Nat} (hstore : i.entry.action = .store)
    (hea : effectiveAddress s i = some ea) (hlt : ea < 65536) :
    exec i s = .next (s.afterStore ea (s.getReg i.entry.reg) i.length (pointerAccesses s i)) := by
  simp only [exec_eq, hea, hstore, hlt, if_true]

/-- A completed store is of the source register at an effective address below 65536 (43_store.md R170). -/
theorem afterStore_of_store {i : Instr} {s t : State} (hstore : i.entry.action = .store) (h : exec i s = .next t) :
    ∃ ea, effectiveAddress s i = some ea ∧ ea < 65536 ∧
      t = s.afterStore ea (s.getReg i.entry.reg) i.length (pointerAccesses s i) := by
  obtain ⟨_, -, -, -, hload, -⟩ | ⟨_, -, -, hload, -⟩ | ⟨ea, hea, hlt, -, -, ht⟩ | ⟨_, -, -, hfault, -⟩ :=
    handsOn_exec (handsOn_of_next h)
  · exact nomatch hstore.symm.trans hload
  · exact nomatch hstore.symm.trans hload
  · exact ⟨ea, hea, hlt, ht⟩
  · exact nomatch h.symm.trans hfault

/-! ### What a store leaves in the registers, the flags, the run and memory -/

section

variable (s : State) (n : Nat) (accesses : List Access)

@[simp] theorem State.afterAccesses_runState : (s.afterAccesses n accesses).runState = s.runState := by
  simp only [State.runState, State.afterAccesses_run]
  cases s.run <;> rfl

@[simp] theorem State.afterAccesses_diagnostics :
    (s.afterAccesses n accesses).run.map (fun r => r.diagnostics) = s.run.map fun r => r.diagnostics := by
  rw [State.afterAccesses_run, Option.map_map]
  rfl

variable (ea : Nat) (v : Byte)

@[simp] theorem State.getReg_afterStore (r : Reg) : (s.afterStore ea v n accesses).getReg r = s.getReg r := by
  cases r <;> rfl

@[simp] theorem State.afterStore_sp : (s.afterStore ea v n accesses).sp = s.sp := rfl

@[simp] theorem State.afterStore_flags : (s.afterStore ea v n accesses).flags = s.flags := rfl

@[simp] theorem State.afterStore_mem : (s.afterStore ea v n accesses).mem = s.mem.writeByte ea v := rfl

@[simp] theorem State.afterStore_runState : (s.afterStore ea v n accesses).runState = s.runState :=
  s.afterAccesses_runState ..

end

/-- A completed instruction adds to the count of a kind as often as the table has that kind (41_engine.md R141). -/
theorem countOf_of_exec_next {i : Instr} {s t : State} (h : exec i s = .next t) (kind : AccessKind) :
    t.run.map (fun r => r.countOf kind) =
      s.run.map fun r => r.countOf kind + (i.entry.mode.kindsBeforeData ++ i.entry.dataKind).count kind := by
  obtain ⟨n, further, hrun, hkinds⟩ := accesses_of_exec_next h
  rw [hrun, State.countOf_afterAccesses, hkinds]

/-! ### The obligations -/

/-- Settles O41: a completed store is a `State.afterStore` of the source register, with the accesses of the table, and one
that raises leaves the state in which its data access would be made. -/
theorem storeActionChangesOnlyTheStoredByte : Obligations.StoreActionChangesOnlyTheStoredByte := by
  intro i s hstore
  refine ⟨fun t h => ?completed, fun ea t h => ?raised⟩
  case completed =>
    have hreads := countOf_of_exec_next h .dataRead
    have hwrites := countOf_of_exec_next h .dataWrite
    obtain ⟨ea, hea, hlt, rfl⟩ := afterStore_of_store hstore h
    rw [Entry.count_dataRead_of_store hstore] at hreads
    rw [Entry.count_dataWrite_of_store hstore (mode_ne_imm_of_effectiveAddress hea)] at hwrites
    refine ⟨fun r => s.getReg_afterStore _ _ _ _ r, s.afterStore_sp .., s.afterStore_flags .., s.afterStore_runState ..,
      s.afterAccesses_diagnostics .., hreads, hwrites, ea, hea, hlt, ?stored, fun a hne => ?others⟩
    case stored => rw [State.afterStore_mem, Memory.readByte_writeByte_same]
    case others => rw [State.afterStore_mem, Memory.readByte_writeByte_ne _ _ hne]
  case raised =>
    obtain ⟨_, -, -, hf⟩ := fault_of_exec h
    cases hf
    exact ⟨rfl, fun r => s.getReg_afterAccesses r .., rfl, rfl⟩

/-- Settles O38: the effective address is the unreduced sum, and it alone decides how the store ends. -/
theorem storeAbsoluteIndexedResult : Obligations.StoreAbsoluteIndexedResult :=
  ⟨fun l h rest => ⟨decode_of_lookup_f3 rfl l h rest, decode_of_lookup_f3 rfl l h rest⟩,
    fun _ _ => ⟨exec_store_of_lt rfl rfl, exec_store_of_lt rfl rfl, exec_of_ge rfl, exec_of_ge rfl⟩⟩

/-- Settles O39: the pointer of the statement is the model's 8-bit sum, and the word at it is below 65536. -/
theorem storeIndirectXResult : Obligations.StoreIndirectXResult := by
  intro b rest s
  simp only [← zeroPageSum_toNat, BitVec.ofNat_toNat, BitVec.toNat_setWidth_of_le, Nat.reduceLeDiff]
  have hea : effectiveAddress s (.staIndx b) = some (s.wordAt (zeroPageSum b s.x).toNat) :=
    congrArg some (resolveIndx_address b s)
  exact ⟨decode_of_lookup_f2 rfl b rest, exec_store_of_lt rfl hea (s.wordAt_lt_capacity _)⟩

/-- Settles O40: the effective address is the word at the pointer plus Y, and it alone decides how the store ends. -/
theorem storeIndirectYResult : Obligations.StoreIndirectYResult := by
  intro b rest s
  simp only [BitVec.ofNat_toNat, BitVec.toNat_setWidth_of_le, Nat.reduceLeDiff]
  have hea : effectiveAddress s (.staIndy b) = some (s.wordAt b.toNat + s.y.toNat) :=
    congrArg some (resolveIndy_address b s)
  exact ⟨decode_of_lookup_f2 rfl b rest, exec_store_of_lt rfl hea, exec_of_ge hea⟩

/-- Settles O34: the effective address is the operand byte, which is below 65536. -/
theorem staZeroPageResult : Obligations.StaZeroPageResult :=
  fun b rest _ => ⟨decode_of_lookup_f2 rfl b rest, exec_store_of_lt rfl rfl (byte_toNat_lt_capacity b)⟩

/-- Settles O35, as `staZeroPageResult` for the two index registers. -/
theorem storeIndexZeroPageResult : Obligations.StoreIndexZeroPageResult :=
  fun b rest _ => ⟨⟨decode_of_lookup_f2 rfl b rest, exec_store_of_lt rfl rfl (byte_toNat_lt_capacity b)⟩,
    decode_of_lookup_f2 rfl b rest, exec_store_of_lt rfl rfl (byte_toNat_lt_capacity b)⟩

/-- Settles O36: the effective address is the 8-bit sum, which is the sum modulo 256. -/
theorem storeZeroPageIndexedResult : Obligations.StoreZeroPageIndexedResult := by
  intro b rest s
  simp only [← zeroPageSum_toNat]
  exact ⟨⟨decode_of_lookup_f2 rfl b rest, exec_store_of_lt rfl rfl (byte_toNat_lt_capacity _)⟩,
    ⟨decode_of_lookup_f2 rfl b rest, exec_store_of_lt rfl rfl (byte_toNat_lt_capacity _)⟩,
    decode_of_lookup_f2 rfl b rest, exec_store_of_lt rfl rfl (byte_toNat_lt_capacity _)⟩

/-- Settles O37: the effective address is the operand word, which is below 65536. -/
theorem storeAbsoluteResult : Obligations.StoreAbsoluteResult :=
  ⟨fun l h rest => ⟨decode_of_lookup_f3 rfl l h rest, decode_of_lookup_f3 rfl l h rest,
      decode_of_lookup_f3 rfl l h rest⟩,
    fun w _ => ⟨exec_store_of_lt rfl rfl w.isLt, exec_store_of_lt rfl rfl w.isLt, exec_store_of_lt rfl rfl w.isLt⟩⟩

end Sys2Proof.Machine

/-! The proofs of 44_stack.md: the stack address (R191) and the two-byte push (R192). -/

namespace Sys2Proof

/-- Bits 15:8 as a quotient (44_stack.md R192). -/
theorem highByte_eq_ofNat (w : Word) : highByte w = BitVec.ofNat 8 (w.toNat / 256) := by
  rw [← highByte_toNat, BitVec.ofNat_toNat, BitVec.setWidth_eq]

/-- Bits 7:0 as a remainder (44_stack.md R192). -/
theorem lowByte_eq_ofNat (w : Word) : lowByte w = BitVec.ofNat 8 (w.toNat % 256) := by
  rw [← lowByte_toNat, BitVec.ofNat_toNat, BitVec.setWidth_eq]

end Sys2Proof

namespace Sys2Proof.Machine

/-- The stack address as a number: the sum of page base and offset stays below 65536 (44_stack.md R191). -/
theorem State.stackAddr_toNat (s : State) : s.stackAddr.toNat = 0x0100 + s.sp.toNat % 256 := by
  have hoffset : ((s.sp.setWidth 8).setWidth 16).toNat = s.sp.toNat % 256 := by
    rw [BitVec.toNat_setWidth_of_le (by decide), BitVec.toNat_setWidth]
  have hbase : Config.stackBase.toNat = 0x0100 := rfl
  rw [State.stackAddr, BitVec.toNat_add, hoffset, hbase]
  omega

/-- Two accesses charge 2 cycles and are recorded in their order (41_engine.md R135, 44_stack.md R192). -/
theorem Run.charge_charge (r : Run) (first second : Access) :
    (r.charge first).charge second =
      { r with budget := r.budget - 2, accesses := r.accesses ++ [first, second] } := by
  have hbudget : r.budget - Config.accessCost - Config.accessCost = r.budget - 2 := Int.sub_sub ..
  simp only [Run.charge, hbudget, List.append_assoc, List.cons_append, List.nil_append]

/-- Half of a push, with its address as a number (44_stack.md R191, R192). -/
theorem State.pushHalf_eq (s : State) (v : Byte) :
    s.pushHalf v =
      { s with
        mem := s.mem.writeByte (0x0100 + s.sp.toNat % 256) v
        sp := s.sp - 1
        run := s.run.map fun r => r.charge ⟨.dataWrite, 0x0100 + s.sp.toNat % 256, v⟩ } := by
  rw [State.pushHalf, State.stackAddr_toNat, State.charge]

/-- Settles O45: the second half of the push starts from the state the first leaves, so its address is that of
`sp - 1`. -/
theorem pushWordWritesHighThenLow : Obligations.PushWordWritesHighThenLow := by
  intro s w
  refine ⟨s.stackAddr_toNat, ?pushed⟩
  case pushed =>
    have hsp : s.sp - 1 - 1 = s.sp - 2 := by bv_omega
    rw [State.pushWord, (s.pushHalf (highByte w)).pushHalf_eq, s.pushHalf_eq]
    simp only [Option.map_map, Function.comp_def, Run.charge_charge, hsp, highByte_eq_ofNat, lowByte_eq_ofNat]

end Sys2Proof.Machine

/-! The proofs of 30_encoding.md sections 1 to 5: decoding inverts encoding (R90 to R96), the unassigned opcodes (R95) and
the register-mode pairs (R93). -/

namespace Sys2Proof

/-! ### The rows of the opcode table -/

/-- A shape stands under the opcode byte of the instructions it makes, with their operand bytes (30_encoding.md R90, R92). -/
def Shape.EncodesAs (op : Byte) : Shape → Prop
  | .f2 make => ∀ b, encode (make b) = [op, b]
  | .f3 make => ∀ w, encode (make w) = [op, lowByte w, highByte w]

/-- Each row of the table is one of the encoder (30_encoding.md R93). -/
theorem Shape.encodesAs_of_mem : ∀ row ∈ opcodeTable, row.2.EncodesAs row.1 := by
  simp only [opcodeTable, List.forall_mem_cons, List.not_mem_nil, false_implies, implies_true, and_true]
  and_intros <;> exact fun _ => rfl

theorem bytes_of_decodeOperands {op : Byte} {shape : Shape} {bytes rest : List Byte} {i : Instr}
    (hshape : shape.EncodesAs op) (h : decodeOperands shape bytes = .instr i rest) : op :: bytes = encode i ++ rest := by
  match shape, bytes, h with
  | .f2 _, b :: _, rfl => rw [hshape b]; rfl
  | .f3 _, l :: h :: _, rfl => 
    rw [hshape, lowByte_assembleWord, highByte_assembleWord]
    rfl

/-- What decodes to an instruction is its encoding and the rest (30_encoding.md R90, R96). -/
theorem bytes_of_decode {bytes rest : List Byte} {i : Instr} (h : decode bytes = .instr i rest) :
    bytes = encode i ++ rest := by
  cases bytes with
  | nil => exact nomatch h
  | cons op operands =>
    cases hlookup : lookupOpcode op with
    | none => simp only [decode, hlookup, reduceCtorEq] at h
    | some shape =>
      simp only [decode, hlookup] at h
      exact bytes_of_decodeOperands (Shape.encodesAs_of_mem _ (lookupOpcode_eq_some hlookup)) h

/-- The descriptor a shape's instructions have, whatever the operand (30_encoding.md R91). -/
def Shape.entry : Shape → Entry
  | .f2 make => (make 0).entry
  | .f3 make => (make 0).entry

theorem Shape.exists_instr (shape : Shape) : ∃ i : Instr, i.entry = shape.entry := by
  cases shape with
  | f2 make => exact ⟨make 0, rfl⟩
  | f3 make => exact ⟨make 0, rfl⟩

/-- Every register-mode pair that exists has its row in the table (30_encoding.md R93). -/
theorem mem_opcodeTable_of_mem_validModes (action : Action) (reg : Reg) :
    ∀ mode ∈ validModes action reg, ⟨action, reg, mode⟩ ∈ opcodeTable.map fun row => row.2.entry := by
  cases action <;> cases reg <;> decide

theorem Entry.exists_instr_of_valid {e : Entry} (h : e.valid = true) : ∃ i : Instr, i.entry = e := by
  have hmode : e.mode ∈ validModes e.action e.reg := List.contains_iff_mem.mp h
  obtain ⟨row, -, hrow⟩ := List.mem_map.mp (mem_opcodeTable_of_mem_validModes e.action e.reg e.mode hmode)
  obtain ⟨i, hi⟩ := row.2.exists_instr
  exact ⟨i, hi.trans hrow⟩

/-! ### The unassigned opcodes -/

/-- The assigned opcodes as numbers are the table's keys (30_encoding.md R95). -/
theorem perm_assigned :
    ((List.range 256).filter fun n => !(lookupOpcode (BitVec.ofNat 8 n)).isNone).Perm
      ((opcodeTable.map Prod.fst).map BitVec.toNat) := by
  have hkeys : ((opcodeTable.map Prod.fst).map BitVec.toNat).Nodup :=
    opcodeTable_keys_unique.map fun _ _ => BitVec.eq_of_toNat_eq
  refine (List.perm_ext_iff_of_nodup (List.nodup_range.filter _) hkeys).mpr fun n => ?_
  have hassigned : (!(lookupOpcode (BitVec.ofNat 8 n)).isNone) = true ↔ BitVec.ofNat 8 n ∈ opcodeTable.map Prod.fst := by
    rw [Bool.not_eq_true', ← Bool.not_eq_true, Option.isNone_iff_eq_none, lookupOpcode_eq_none_iff, not_not]
  rw [List.mem_filter, List.mem_range, hassigned, List.mem_map (f := BitVec.toNat)]
  constructor
  · exact fun ⟨hlt, hmem⟩ => ⟨_, hmem, BitVec.toNat_ofNat .. ▸ Nat.mod_eq_of_lt hlt⟩
  · rintro ⟨op, hmem, rfl⟩
    exact ⟨op.isLt, by rwa [BitVec.ofNat_toNat, BitVec.setWidth_eq]⟩

/-- The table has 31 keys, so 225 of the 256 byte values are unassigned (30_encoding.md R95). -/
theorem length_unassigned :
    ((List.range 256).filter fun n => (lookupOpcode (BitVec.ofNat 8 n)).isNone).length = 225 := by
  have htotal := (List.range 256).length_eq_length_filter_add fun n => (lookupOpcode (BitVec.ofNat 8 n)).isNone
  rw [perm_assigned.length_eq, List.length_range] at htotal
  exact Nat.add_right_cancel htotal.symm

/-! ### The obligations -/

/-- Settles O11: the lookup finds the instruction's row, which reads its operand bytes back. -/
theorem decodeInvertsEncode : Obligations.DecodeInvertsEncode := fun i rest _ => decode_encode_append i rest

/-- Settles O12: the row an opcode byte is found in makes instructions of that byte. -/
theorem decodedBytesAreTheEncoding : Obligations.DecodedBytesAreTheEncoding :=
  fun _ _ i h => ⟨bytes_of_decode h, encode_length i, i.wellFormed_eq_true⟩

/-- Settles O13: a byte is unassigned exactly when the table has no such key. -/
theorem unassignedOpcodesAreRejected : Obligations.UnassignedOpcodesAreRejected := by
  refine ⟨fun op rest => ?_, length_unassigned⟩
  rw [Machine.decode_unassigned_iff, lookupOpcode_eq_none_iff]
  exact and_iff_left rfl

/-- Settles O14: a valid pair has a row, and every instruction's descriptor is valid. -/
theorem descriptorsAreTheValidPairs : Obligations.DescriptorsAreTheValidPairs :=
  fun _ => ⟨Entry.exists_instr_of_valid, fun ⟨i, hi⟩ => hi ▸ i.wellFormed_eq_true⟩

/-- Settles O15: each is the table's row applied to the operand bytes, which the decoder evaluates. -/
theorem exampleBytesDecode : Obligations.ExampleBytesDecode := by
  unfold Obligations.ExampleBytesDecode
  decide

end Sys2Proof

/-! The proofs of the host interface's remaining rules: when the host acts (70_reset_and_hazards.md R234), the setters
(10_state.md R37, R38) and the two-byte read (20_memory.md R65). -/

namespace Sys2Proof.Machine

/-- N of a byte, its bit 7, as a mask (10_state.md R32). -/
theorem byte_getLsbD_seven_eq_mask (v : Byte) : v.getLsbD 7 = decide (v &&& 0x80#8 ≠ 0#8) := by
  have hmask : v &&& 0x80#8 = if v.getLsbD 7 then 0x80#8 else 0#8 := BitVec.and_twoPow v 7
  rw [hmask]
  cases v.getLsbD 7 <;> rfl

/-- The deriving setter, its flags written out (10_state.md R38). -/
theorem State.setDeriving_eq (s : State) (r : Reg) (v : Byte) :
    s.setDeriving r v =
      { s.setReg r v with
        flags := { s.flags with z := decide (v = 0#8), n := decide (v &&& 0x80#8 ≠ 0#8) } } := by
  rw [← byte_getLsbD_seven_eq_mask, State.setDeriving, State.deriveZN, State.setReg_flags]
  rfl

theorem State.memRead16_of_lt (s : State) {a : Nat} (h : a < 65535) :
    s.memRead16 a = .ok (assembleWord (s.mem.readByte a) (s.mem.readByte (a + 1))) := by
  simp only [State.memRead16, s.memRead_of_lt (Nat.lt_succ_of_lt h), s.memRead_of_lt (Nat.succ_lt_succ h)]

theorem State.memRead16_of_ge (s : State) {a : Nat} (h : 65536 ≤ a) : s.memRead16 a = .error a := by
  simp only [State.memRead16, s.memRead_of_ge h]

/-- At the last address the first byte is there and the second is not (20_memory.md R65, D15). -/
theorem State.memRead16_last (s : State) : s.memRead16 65535 = .error 65536 := by
  simp only [State.memRead16, s.memRead_of_lt (show 65535 < 65536 by decide), s.memRead_of_ge (Nat.le_refl 65536)]

/-- The engine's read of a pointer gives the word at it (20_memory.md R78). -/
theorem State.readPtr16_word (s : State) (p : Byte) : (s.readPtr16 p).1 = s.pointerWord p := rfl

/-! ### The obligations -/

/-- Settles O3: the answer goes by the engine's state alone. -/
theorem hostActsOnlyWhileIdle : Obligations.HostActsOnlyWhileIdle :=
  fun strict c s => ⟨fun hrunning => by simp only [hostOp, hrunning], fun hidle => ⟨_, _, hostOp_of_idle strict c hidle⟩⟩

/-- Settles O7: each setter is possible on an idle engine, and a deriving one is `State.setDeriving_eq`. -/
theorem settersWriteOnlyTheirTargets : Obligations.SettersWriteOnlyTheirTargets := by
  intro strict s v w hidle
  simp only [hostOp_of_idle strict _ hidle, hostIdle, State.setDeriving_eq, State.setReg, and_self]

/-- Settles O58: both bytes are inside, the second is outside, or both are; a zero-page pointer has both inside. -/
theorem twoByteReadIsLittleEndianUnwrapped : Obligations.TwoByteReadIsLittleEndianUnwrapped := by
  intro s
  refine ⟨fun a ha => ⟨_, s.memRead16_of_lt ha, assembleWord_toNat _ _⟩, s.memRead16_last,
    fun a ha => s.memRead16_of_ge ha, fun p => ?_⟩
  rw [s.memRead16_of_lt (lt_trans p.isLt (by decide)), s.readPtr16_word, State.pointerWord, s.byteAt_pointer,
    s.byteAt_pointer_succ]

end Sys2Proof.Machine

/-! The proofs of single steps and instructions: what a step runs and without fuel does not (41_engine.md section 1),
where it leaves `pc` (R142), its accesses and their cost (R135 to R137), the frames of loads and stores, and which
instructions can stop (60_exceptions.md R202). -/

namespace Sys2Proof

/-- By the table an instruction makes 2 to 5 accesses, and one less where it stops (41_engine.md R137, R141). -/
theorem Entry.accesses_bounds (e : Entry) :
    2 ≤ e.mode.kindsBeforeData.length ∧ (e.mode.kindsBeforeData ++ e.dataKind).length ≤ 5 := by
  obtain ⟨action, reg, mode⟩ := e
  cases mode <;> cases action <;> simp [Mode.kindsBeforeData, Entry.dataKind]

end Sys2Proof

namespace Sys2Proof.Machine

/-! ### Where a step leaves `pc` and `sp`, and a step without fuel -/

/-- `n` bytes further, modulo 65536 (10_state.md section 3, D5). -/
theorem word_add_ofNat_toNat (w : Word) (n : Nat) : (w + BitVec.ofNat 16 n).toNat = (w.toNat + n) % 65536 := by
  rw [BitVec.toNat_add, BitVec.toNat_ofNat, Nat.add_mod_mod]

@[simp] theorem State.afterUnhandled_pc (s : State) : s.afterUnhandled.pc = s.pc + BitVec.ofNat 16 1 := rfl

@[simp] theorem State.afterLoad_mem (s : State) (r : Reg) (v : Byte) (n : Nat) (accesses : List Access) :
    (s.afterLoad r v n accesses).mem = s.mem := by
  simp only [State.afterLoad, State.setReg_mem, State.afterAccesses_mem]

@[simp] theorem State.afterLoad_sp (s : State) (r : Reg) (v : Byte) (n : Nat) (accesses : List Access) :
    (s.afterLoad r v n accesses).sp = s.sp := by
  simp only [State.afterLoad, State.setReg_sp, State.afterAccesses_sp]

theorem sp_of_handsOn_exec {i : Instr} {s t : State} (h : handsOn (exec i s) t) : t.sp = s.sp := by
  obtain ⟨_, -, -, -, -, -, -, rfl⟩ | ⟨_, -, -, -, -, rfl⟩ | ⟨_, -, -, -, -, rfl⟩ | ⟨_, -, -, -, rfl⟩ := handsOn_exec h
  · exact s.afterLoad_sp ..
  · exact s.afterLoad_sp ..
  · exact s.afterStore_sp ..
  · exact s.afterAccesses_sp ..

theorem sp_of_handsOn_stepWith {strict : Bool} {s t : State} (h : handsOn (stepWith strict s) t) : t.sp = s.sp := by
  obtain ⟨-, rfl⟩ | ⟨_, -, -, rfl⟩ | ⟨-, i, _, -, hexec⟩ | ⟨-, -, -, rfl⟩ := handsOn_stepWith h
  · rfl
  · rfl
  · exact sp_of_handsOn_exec hexec
  · rfl

/-- A run without fuel ends (41_engine.md R131, the loop condition). -/
theorem stepWith_of_budget_nonpos {s : State} {r : Run} (strict : Bool) (hrun : s.run = some r)
    (hbudget : r.budget ≤ 0) : stepWith strict s = .next s.endRun := by
  simp only [stepWith, hrun, if_neg (Int.not_lt.mpr hbudget)]

/-! ### What a load leaves -/

theorem State.getReg_afterLoad_ne (s : State) {r r' : Reg} (v : Byte) (n : Nat) (accesses : List Access) (h : r' ≠ r) :
    (s.afterLoad r v n accesses).getReg r' = s.getReg r' := by
  have hframe : (s.afterLoad r v n accesses).getReg r' = ((s.afterAccesses n accesses).setReg r v).getReg r' := by
    cases r' <;> rfl
  rw [hframe, State.getReg_setReg_ne _ r r' v h, State.getReg_afterAccesses]

/-- The engine's state goes by whether there is a run (10_state.md R39). -/
theorem State.runState_congr {s t : State} (h : t.run = s.run) : t.runState = s.runState := by
  simp only [State.runState, h]

/-! ### The instructions that can stop -/

/-- Only eight opcodes have the modes whose address can be 65536 or more (60_exceptions.md R202). -/
theorem opcode_mem_of_mode_mem {i : Instr} (h : i.entry.mode ∈ [.absx, .absy, .indy]) :
    i.opcode ∈ ([0xBD, 0xB9, 0xB1, 0xBE, 0xBC, 0x9D, 0x99, 0x91] : List Byte) := by
  cases i with
  | ldaAbsx | ldaAbsy | ldaIndy | ldxAbsy | ldyAbsx | staAbsx | staAbsy | staIndy => simp [Instr.opcode]
  | ldaImm | ldaZp | ldaZpx | ldaAbs | ldaIndx | ldxImm | ldxZp | ldxZpy | ldxAbs | ldyImm | ldyZp | ldyZpx | ldyAbs
  | staZp | staZpx | staAbs | staIndx | stxZp | stxZpy | stxAbs | styZp | styZpx | styAbs => simp [Instr.entry] at h

/-- An instruction that does not stop completes: none refuses. -/
theorem exec_next_of_no_fault {i : Instr} {s : State} (h : ¬∃ f, exec i s = .fault f) : ∃ t, exec i s = .next t := by
  obtain ⟨t, hnext | ⟨_, hfault⟩ | ⟨_, _, hfault⟩⟩ := exec_hands_on i s
  · exact ⟨t, hnext⟩
  · exact absurd ⟨_, hfault⟩ h
  · exact absurd ⟨_, hfault⟩ h

/-! ### The accesses of an iteration and their cost -/

/-- An iteration adds to the run 1 to 5 accesses, each of one cycle, and at most diagnostics besides (41_engine.md R135,
R137). -/
def Run.Extends (r r' : Run) : Prop :=
  ∃ diagnostics accesses,
    r' = { budget := r.budget - (accesses.length : Int), diagnostics := r.diagnostics ++ diagnostics,
           accesses := r.accesses ++ accesses } ∧
      1 ≤ accesses.length ∧ accesses.length ≤ 5

/-- Accesses of an instruction's number, charged to a run in progress. -/
theorem State.afterAccesses_extends {s : State} {r : Run} {n : Nat} {further : List Access} {kinds : List AccessKind}
    (hrun : s.run = some r) (hkinds : (fetchesAt s s.pc n ++ further).map (fun access => access.kind) = kinds)
    (hlower : 1 ≤ kinds.length) (hupper : kinds.length ≤ 5) :
    ∃ r', (s.afterAccesses n further).run = some r' ∧ r.Extends r' := by
  obtain ⟨accesses, hafter, rfl⟩ := State.afterAccesses_run_of_kinds hrun hkinds
  rw [List.length_map] at hafter hlower hupper
  exact ⟨_, hafter, [], accesses, by rw [List.append_nil], hlower, hupper⟩

theorem extends_of_handsOn_exec {i : Instr} {s t : State} {r : Run} (hrun : s.run = some r)
    (h : handsOn (exec i s) t) : ∃ r', t.run = some r' ∧ r.Extends r' := by
  obtain ⟨hlower, hupper⟩ := i.entry.accesses_bounds
  rw [List.length_append] at hupper
  have completed (hnext : exec i s = .next t) : ∃ r', t.run = some r' ∧ r.Extends r' := by
    obtain ⟨n, further, ht, hkinds⟩ := accesses_of_exec_next hnext
    rw [ht]
    exact State.afterAccesses_extends hrun hkinds (by rw [List.length_append]; omega) (by rwa [List.length_append])
  obtain ⟨_, -, -, -, -, -, hnext, -⟩ | ⟨_, -, -, -, hnext, -⟩ | ⟨_, -, -, -, hnext, -⟩ | ⟨_, -, -, -, rfl⟩ :=
    handsOn_exec h
  · exact completed hnext
  · exact completed hnext
  · exact completed hnext
  · exact State.afterAccesses_extends hrun (kinds_before_data i s) (by omega) (by omega)

theorem extends_of_handsOn_iterate {strict : Bool} {s t : State} {r : Run} (hrun : s.run = some r)
    (h : handsOn (iterate strict s) t) : ∃ r', t.run = some r' ∧ r.Extends r' := by
  obtain ⟨i, rest, -, hexec⟩ | ⟨-, -, hunhandled⟩ := iterate_cases strict s
  · exact extends_of_handsOn_exec hrun (hexec ▸ h)
  · rw [(handsOn_unhandled strict s t).mp (hunhandled ▸ h), State.afterUnhandled_of_run hrun]
    exact ⟨_, rfl, [_], [_], rfl, Nat.le_refl 1, show 1 ≤ 5 by decide⟩

/-! ### The obligations -/

/-- Settles O19: an instruction leaves `pc` past its bytes, and the unhandled path fetches one byte. -/
theorem iterationMovesPcPastInstruction : Obligations.IterationMovesPcPastInstruction := by
  intro strict s t hfuel h
  refine ⟨fun i rest hdecode => ?instruction, fun op hdecode => ?unassigned⟩
  case instruction =>
    rw [stepWith_of_decode strict hfuel hdecode] at h
    rw [pc_of_handsOn_exec h, word_add_ofNat_toNat]
  case unassigned =>
    obtain ⟨hlookup, -⟩ := (decode_unassigned_iff _ _ _).mp hdecode
    rw [stepWith_of_unassigned strict hfuel hlookup, handsOn_unhandled] at h
    rw [h, State.afterUnhandled_pc, word_add_ofNat_toNat]

/-- Settles O21: the store's byte is read back at the address it was written to. -/
theorem nextFetchSeesTheStore : Obligations.NextFetchSeesTheStore := by
  intro s i t hstore h hpc
  obtain ⟨ea, hea, -, ht⟩ := afterStore_of_store hstore h
  have haddress : t.pc.toNat = ea := Option.some.inj (hpc.symm.trans hea)
  rw [State.fetch8_byte, State.byteAt, haddress, ht, State.afterStore_mem, Memory.readByte_writeByte_same]

/-- Settles O33: a completed load is a `State.afterLoad`. -/
theorem loadsChangeOnlyDestinationAndZN : Obligations.LoadsChangeOnlyDestinationAndZN := by
  intro i s t hload h
  obtain ⟨v, n, accesses, rfl, -⟩ := afterLoad_of_load hload h
  have hrun := s.afterLoad_run i.entry.reg v n accesses
  have hrunState := (State.runState_congr hrun).trans (s.afterAccesses_runState ..)
  rw [s.afterLoad_flags, s.afterLoad_sp, s.afterLoad_mem, hrunState, hrun, s.afterAccesses_diagnostics]
  exact ⟨fun _ hr => s.getReg_afterLoad_ne v n accesses hr, rfl, rfl, rfl, rfl, rfl, rfl, fun _ => rfl, rfl, rfl⟩

/-- Settles O43: `fault_of_exec` gives the one way to stop, `exec_of_ge` says that it happens, and
`effectiveAddress_lt` which modes cannot. -/
theorem onlyEightOpcodesRaiseOutOfRange : Obligations.OnlyEightOpcodesRaiseOutOfRange := by
  intro i s
  refine ⟨fun f hfault => ?fault, ⟨fun ⟨f, hfault⟩ => ?address, fun ⟨ea, hea, hge⟩ => ⟨_, exec_of_ge hea hge⟩⟩,
    exec_next_of_no_fault⟩
  case fault =>
    obtain ⟨ea, hea, hge, rfl⟩ := fault_of_exec hfault
    have hmode : i.entry.mode ∈ [.absx, .absy, .indy] := by
      by_contra hnot
      exact Nat.not_lt.mpr hge (effectiveAddress_lt hea hnot)
    exact ⟨opcode_mem_of_mode_mem hmode, ea, _, hea, hge, rfl, rfl⟩
  case address =>
    obtain ⟨ea, hea, hge, -⟩ := fault_of_exec hfault
    exact ⟨ea, hea, hge⟩

/-- Settles O52: with fuel a step is an iteration, and `Run.Extends` is what that does to the run. -/
theorem everyAccessCostsOneCycle : Obligations.EveryAccessCostsOneCycle := by
  intro strict s t r hrun hbudget h
  rw [stepWith_fueled ⟨r, hrun, hbudget⟩] at h
  obtain ⟨r', hrun', diagnostics, accesses, rfl, hlower, hupper⟩ := extends_of_handsOn_iterate hrun h
  exact ⟨_, accesses, hrun', rfl, rfl, hlower, hupper⟩

/-- Settles O51: an iteration begins with at least 1 cycle and takes at most 5; without one the budget stays or goes. -/
theorem stepOvershootsToMinusFourAtMost : Obligations.StepOvershootsToMinusFourAtMost := by
  intro strict s t floor hfloor hs h r' hr'
  obtain ⟨-, rfl⟩ | ⟨_, -, -, rfl⟩ | ⟨hfuel, -⟩ | ⟨hfuel, -⟩ := handsOn_stepWith h
  · exact hs r' hr'
  · exact nomatch hr'
  all_goals
    obtain ⟨r, hrun, hbudget⟩ := hfuel
    obtain ⟨_, accesses, hrun', -, hcost, -, hupper⟩ := everyAccessCostsOneCycle strict s t r hrun hbudget h
    obtain rfl := Option.some.inj (hr'.symm.trans hrun')
    omega

/-- Settles O16: the bytes of the statement are those the step decodes. -/
theorem stepRunsTheDecodedInstruction : Obligations.StepRunsTheDecodedInstruction :=
  fun strict _ _ _ hfuel hdecode _ =>
    ⟨stepWith_of_decode strict hfuel hdecode, stepWith_of_decode Config.strictUnhandled hfuel hdecode⟩

/-- Settles O18: the two arms of the step that run no iteration. -/
theorem stepWithoutFuel : Obligations.StepWithoutFuel := by
  refine fun strict s => ⟨fun hidle => ?idle, fun r hrun hbudget => stepWith_of_budget_nonpos strict hrun hbudget, rfl⟩
  case idle => rw [stepWith, s.runState_idle_iff.mp hidle]

end Sys2Proof.Machine

/-! The proofs of 44_stack.md on where a push lands (R191, R192) and that no run pushes (R195). -/

namespace Sys2Proof.Machine

/-- A push reads back as its two writes, the low byte's the later one (44_stack.md R192). -/
theorem State.readByte_pushWord (s : State) (w : Word) (a : Nat) :
    (s.pushWord w).mem.readByte a =
      if a = 0x0100 + (s.sp - 1).toNat % 256 then lowByte w
      else if a = 0x0100 + s.sp.toNat % 256 then highByte w else s.mem.readByte a := by
  simp only [State.pushWord, State.pushHalf_mem, State.stackAddr_toNat, State.pushHalf_sp, Memory.readByte_writeByte]

/-- Settles O46: both addresses are 0x0100 plus a remainder modulo 256, and 0 less 1 leaves 255. -/
theorem pushWordStaysInStackPage : Obligations.PushWordStaysInStackPage := by
  intro s w
  simp only [State.readByte_pushWord]
  refine ⟨fun a houtside => ?outside, fun hzero => ?wrap⟩
  case outside => rw [if_neg (by omega), if_neg (by omega)]
  case wrap =>
    have hlow : (s.sp - 1).toNat % 256 = 255 := by bv_omega
    rw [hzero, hlow]
    exact ⟨rfl, rfl⟩

/-- Settles O47: no iteration writes `sp`, so no run does. -/
theorem runsKeepTheStackPointer : Obligations.RunsKeepTheStackPointer := by
  refine ⟨fun strict s t h => sp_of_handsOn_stepWith h, fun strict s b0 => ?_⟩
  obtain ⟨status, u, hu, hresult⟩ := runLoop_keeps (P := fun u => u.sp = s.sp)
    (fun _ _ hsp hfuel h => (sp_of_handsOn_stepWith (stepWith_fueled hfuel ▸ h)).trans hsp) b0.toNat
    (s.startRun b0) rfl
  rw [State.execute, hresult]
  exact hu

end Sys2Proof.Machine

/-! The proofs of 20_memory.md sections 1 and 5 with 60_exceptions.md section 1: the model's invariant at reset, through
every step and through every operation of the host. -/

namespace Sys2Proof.Machine

/-! ### What keeps the invariant -/

/-- The invariant speaks of memory and of the run alone. -/
theorem State.inv_congr {s t : State} (h : s.inv) (hmem : t.mem = s.mem) (hrun : t.run = s.run) : t.inv := by
  obtain ⟨hwf, hruns⟩ := h
  exact ⟨hmem ▸ hwf, fun r hr => hruns r (hrun ▸ hr)⟩

/-- On an idle engine the invariant is the canonical form of memory. -/
theorem State.inv_of_idle {s : State} (hidle : s.run = none) (hwf : s.mem.wf = true) : s.inv :=
  ⟨hwf, fun _ hr => nomatch hidle.symm.trans hr⟩

theorem State.inv_startRun {s : State} (b0 : Int) (h : s.inv) : (s.startRun b0).inv := by
  refine ⟨h.1, fun r hr => ?_⟩
  cases hr
  exact ⟨nofun, nofun⟩

theorem State.inv_endRun {s : State} (h : s.inv) : s.endRun.inv := State.inv_of_idle rfl h.1

theorem fetchesAt_addr_lt {s : State} {n : Nat} {pc : Word} {access : Access} (h : access ∈ fetchesAt s pc n) :
    access.addr < 65536 := by
  induction n generalizing pc with
  | zero => exact nomatch h
  | succ n ih =>
    obtain rfl | h := List.mem_cons.mp h
    · exact pc.isLt
    · exact ih h

theorem pointerReads_addr_lt {s : State} {p : Word} {access : Access} (h : access ∈ pointerReads s p) :
    access.addr < 65536 := by
  simp only [pointerReads, List.mem_cons, List.not_mem_nil, or_false] at h
  obtain rfl | rfl := h
  · exact p.isLt
  · exact (p + 1).isLt

theorem pointerAccesses_addr_lt {s : State} {i : Instr} {access : Access} (h : access ∈ pointerAccesses s i) :
    access.addr < 65536 := by
  cases i with
  | ldaIndx | staIndx | ldaIndy | staIndy => exact pointerReads_addr_lt h
  | ldaImm | ldaZp | ldaZpx | ldaAbs | ldaAbsx | ldaAbsy | ldxImm | ldxZp | ldxZpy | ldxAbs | ldxAbsy | ldyImm | ldyZp
  | ldyZpx | ldyAbs | ldyAbsx | staZp | staZpx | staAbs | staAbsx | staAbsy | stxZp | stxZpy | stxAbs | styZp | styZpx
  | styAbs => exact nomatch h

/-- Accesses inside the address space keep the invariant: the fetches are always inside (20_memory.md R64, R73). -/
theorem State.inv_afterAccesses {s : State} (n : Nat) {further : List Access} (h : s.inv)
    (hfurther : ∀ access ∈ further, access.addr < 65536) : (s.afterAccesses n further).inv := by
  obtain ⟨hwf, hruns⟩ := h
  refine ⟨hwf, fun r' hr' => ?_⟩
  obtain ⟨r, hr, rfl⟩ := Option.map_eq_some_iff.mp hr'
  obtain ⟨haccesses, hdiagnostics⟩ := hruns r hr
  refine ⟨fun access hmem => ?_, hdiagnostics⟩
  obtain hold | hnew := List.mem_append.mp hmem
  · exact haccesses access hold
  · exact (List.mem_append.mp hnew).elim fetchesAt_addr_lt (hfurther access)

/-- An instruction's pointer reads and a data access at an address inside it are accesses inside the address space. -/
theorem addr_lt_of_mem_data {s : State} {i : Instr} {data : Access} (hdata : data.addr < 65536) :
    ∀ access ∈ pointerAccesses s i ++ [data], access.addr < 65536 := by
  intro access hmem
  obtain hpointer | hlast := List.mem_append.mp hmem
  · exact pointerAccesses_addr_lt hpointer
  · exact List.mem_singleton.mp hlast ▸ hdata

theorem State.inv_afterLoad {s : State} {n : Nat} {accesses : List Access} (r : Reg) (v : Byte)
    (h : (s.afterAccesses n accesses).inv) : (s.afterLoad r v n accesses).inv :=
  State.inv_congr h (s.afterLoad_mem r v n accesses) (s.afterLoad_run r v n accesses)

theorem State.inv_emit {s : State} {d : Diagnostic} (h : s.inv) (hd : lookupOpcode d.op = none) : (s.emit d).inv := by
  obtain ⟨hwf, hruns⟩ := h
  refine ⟨hwf, fun r' hr' => ?_⟩
  obtain ⟨r, hr, rfl⟩ := Option.map_eq_some_iff.mp hr'
  obtain ⟨haccesses, hdiagnostics⟩ := hruns r hr
  refine ⟨haccesses, fun d' hmem => ?_⟩
  obtain hold | hnew := List.mem_append.mp hmem
  · exact hdiagnostics d' hold
  · exact List.mem_singleton.mp hnew ▸ hd

/-! ### Instructions, steps and host operations -/

theorem inv_of_handsOn_exec {i : Instr} {s t : State} (hinv : s.inv) (h : handsOn (exec i s) t) : t.inv := by
  obtain ⟨v, -, -, -, -, -, -, rfl⟩ | ⟨ea, -, hlt, -, -, rfl⟩ | ⟨ea, -, hlt, -, -, rfl⟩ | ⟨ea, -, -, -, rfl⟩ :=
    handsOn_exec h
  · exact State.inv_afterLoad _ _ (State.inv_afterAccesses 2 hinv nofun)
  · exact State.inv_afterLoad _ _ (State.inv_afterAccesses i.length hinv (addr_lt_of_mem_data hlt))
  · obtain ⟨hwf, hruns⟩ := State.inv_afterAccesses i.length hinv
      (addr_lt_of_mem_data (data := ⟨.dataWrite, ea, s.getReg i.entry.reg⟩) hlt)
    exact ⟨Memory.wf_writeByte _ hlt hwf, hruns⟩
  · exact State.inv_afterAccesses i.length hinv fun _ => pointerAccesses_addr_lt

theorem State.inv_afterUnhandled {s : State} (hinv : s.inv) (hlookup : lookupOpcode (s.byteAt s.pc) = none) :
    s.afterUnhandled.inv :=
  State.inv_emit (State.inv_afterAccesses 1 hinv nofun) hlookup

theorem inv_of_handsOn_iterate {strict : Bool} {s t : State} (hinv : s.inv) (h : handsOn (iterate strict s) t) :
    t.inv := by
  obtain ⟨i, rest, -, hexec⟩ | ⟨hlookup, -, hunhandled⟩ := iterate_cases strict s
  · exact inv_of_handsOn_exec hinv (hexec ▸ h)
  · rw [(handsOn_unhandled strict s t).mp (hunhandled ▸ h)]
    exact State.inv_afterUnhandled hinv hlookup

theorem inv_of_handsOn_stepWith {strict : Bool} {s t : State} (hinv : s.inv) (h : handsOn (stepWith strict s) t) :
    t.inv := by
  obtain ⟨-, rfl⟩ | ⟨_, -, -, rfl⟩ | ⟨-, i, _, -, hexec⟩ | ⟨-, hlookup, -, rfl⟩ := handsOn_stepWith h
  · exact hinv
  · exact State.inv_endRun hinv
  · exact inv_of_handsOn_exec hinv hexec
  · exact State.inv_afterUnhandled hinv hlookup

/-- A whole run keeps the invariant: every iteration does (41_engine.md R131). -/
theorem State.inv_execute {s : State} (strict : Bool) (b0 : Int) (hinv : s.inv) : (s.execute strict b0).state.inv := by
  obtain ⟨status, u, hu, hresult⟩ := runLoop_keeps (P := State.inv)
    (fun _ _ h _ hands => inv_of_handsOn_iterate h hands) b0.toNat (s.startRun b0) (State.inv_startRun b0 hinv)
  rw [State.execute, hresult]
  exact State.inv_endRun hu

theorem State.inv_hostIdle {s : State} (strict : Bool) (c : HostCmd) (hinv : s.inv) : (hostIdle strict s c).2.inv := by
  cases c with
  | read a =>
    by_cases ha : a < 65536
    · simpa only [hostIdle, s.memRead_of_lt ha] using hinv
    · simpa only [hostIdle, s.memRead_of_ge (Nat.le_of_not_lt ha)] using hinv
  | write a v =>
    obtain ⟨hwf, hruns⟩ := hinv
    by_cases ha : a < 65536
    · simp only [hostIdle, s.memWrite_of_lt v ha]
      exact ⟨Memory.wf_writeByte v ha hwf, hruns⟩
    · simp only [hostIdle, s.memWrite_of_ge v (Nat.le_of_not_lt ha)]
      exact ⟨hwf, hruns⟩
  | reinitialize | reset => exact ⟨Memory.wf_nil, hinv.2⟩
  | getReg | getPc | getSp | getFlag | getStatus => exact hinv
  | setPc | setSp | setStatus => exact State.inv_congr hinv rfl rfl
  | setReg r v | setDeriving r v => exact State.inv_congr hinv (s.setReg_mem r v) (s.setReg_run r v)
  | execute b0 => exact State.inv_execute strict b0 hinv

/-! ### The obligations -/

/-- Settles O49: an access is made below 65536 or not at all, and a diagnostic is emitted for an unassigned byte only. -/
theorem stepKeepsTheInvariant : Obligations.StepKeepsTheInvariant :=
  ⟨fun _ _ hinv h => inv_of_handsOn_stepWith hinv (handsOn_of_next h),
    fun _ _ _ hinv h => inv_of_handsOn_stepWith hinv h⟩

/-- Settles O50: an operation is possible on an idle engine alone, where each of them keeps the invariant. -/
theorem hostOperationsKeepTheInvariant : Obligations.HostOperationsKeepTheInvariant := by
  intro strict c s reply t hinv h
  cases hstate : s.runState with
  | idle =>
    have hanswer : hostIdle strict s c = (reply, t) := Option.some.inj ((hostOp_of_idle strict c hstate).symm.trans h)
    have hkept := State.inv_hostIdle strict c hinv
    rwa [hanswer] at hkept
  | running => simp only [hostOp, hstate, reduceCtorEq] at h

/-- Settles O48: both states have empty memory and no run. -/
theorem resetMeetsTheInvariant : Obligations.ResetMeetsTheInvariant :=
  ⟨State.inv_of_idle rfl Memory.wf_nil, State.inv_of_idle rfl Memory.wf_nil⟩

end Sys2Proof.Machine

/-! The proofs of 41_engine.md sections 1, 2 and 4: whole runs. `RunsTo` is the loop of R131 without fuel; the statements
on `State.execute` follow by induction over it. -/

namespace Sys2Proof.Machine

/-! ### The execute loop as a relation -/

/-- The status of a run that a fault ends (41_engine.md R139, R142). -/
def Fault.status : Fault → Status
  | .outOfRange ea _ => .outOfRange ea
  | .unhandledStop a op _ => .unhandledStop a op

/-- The state a fault carries (60_exceptions.md R208). -/
def Fault.stopped : Fault → State
  | .outOfRange _ t | .unhandledStop _ _ t => t

/-- The run from a state ends with a result: at once without budget, in an iteration's fault, or as the run from the
iteration's next state ends (41_engine.md R131). -/
inductive RunsTo (strict : Bool) : State → RunResult → Prop
  | exhausted {s : State} {r : Run} (hrun : s.run = some r) (hbudget : r.budget ≤ 0) :
    RunsTo strict s (finishRun .exhausted s)
  | fault {s : State} {f : Fault} (hfuel : s.fueled) (hiterate : iterate strict s = .fault f) :
    RunsTo strict s (finishRun f.status f.stopped)
  | next {s t : State} {result : RunResult} (hfuel : s.fueled) (hiterate : iterate strict s = .next t)
    (hrest : RunsTo strict t result) : RunsTo strict s result

theorem budget_pos_of_fueled {s : State} {r : Run} (hfuel : s.fueled) (hrun : s.run = some r) : 0 < r.budget := by
  obtain ⟨r', hrun', hpos⟩ := hfuel
  exact Option.some.inj (hrun'.symm.trans hrun) ▸ hpos

theorem not_fueled_of_budget {s : State} {r : Run} (hrun : s.run = some r) (hbudget : r.budget ≤ 0) : ¬ s.fueled :=
  fun hfuel => Int.not_lt.mpr hbudget (budget_pos_of_fueled hfuel hrun)

theorem handsOn_fault (f : Fault) : handsOn (.fault f) f.stopped := by
  cases f with
  | outOfRange ea t => exact .inr (.inl ⟨ea, rfl⟩)
  | unhandledStop a op t => exact .inr (.inr ⟨a, op, rfl⟩)

/-- The loop is that relation once it has fuel for its budget: an iteration costs at least 1 cycle (41_engine.md R137). -/
theorem runsTo_runLoop (strict : Bool) {fuel : Nat} {s : State} {r : Run} (hrun : s.run = some r)
    (henough : r.budget ≤ fuel) : RunsTo strict s (runLoop strict fuel s) := by
  induction fuel generalizing s r with
  | zero => exact .exhausted hrun henough
  | succ fuel ih =>
    by_cases hbudget : 0 < r.budget
    · have hfuel : s.fueled := ⟨r, hrun, hbudget⟩
      obtain ⟨t, ht, hloop⟩ | ⟨ea, t, ht, hloop⟩ | ⟨a, op, t, ht, hloop⟩ := runLoop_step strict fuel hfuel
      · obtain ⟨r', hrun', _, accesses, rfl, hcost, -⟩ := extends_of_handsOn_iterate hrun (handsOn_of_next ht)
        rw [hloop]
        exact .next hfuel ht (ih hrun' (by push_cast at henough ⊢; omega))
      · exact hloop ▸ .fault hfuel ht
      · exact hloop ▸ .fault hfuel ht
    · have hnone : r.budget ≤ 0 := Int.not_lt.mp hbudget
      rw [runLoop_stops (.inr (not_fueled_of_budget hrun hnone))]
      exact .exhausted hrun hnone

theorem State.runsTo_execute (strict : Bool) (s : State) (b0 : Int) :
    RunsTo strict (s.startRun b0) (s.execute strict b0) := runsTo_runLoop strict rfl (Int.self_le_toNat b0)

/-- The engine is deterministic: a state's run has one result (00_scope.md R5). -/
theorem RunsTo.unique {strict : Bool} {s : State} {result result' : RunResult} (h : RunsTo strict s result)
    (h' : RunsTo strict s result') : result = result' := by
  induction h with
  | exhausted hrun hbudget =>
    cases h' with
    | exhausted => rfl
    | fault hfuel | next hfuel => exact absurd hfuel (not_fueled_of_budget hrun hbudget)
  | fault hfuel hiterate =>
    cases h' with
    | exhausted hrun hbudget => exact absurd hfuel (not_fueled_of_budget hrun hbudget)
    | fault _ hiterate' => cases hiterate.symm.trans hiterate'; rfl
    | next _ hiterate' => exact nomatch hiterate.symm.trans hiterate'
  | next hfuel hiterate _ ih =>
    cases h' with
    | exhausted hrun hbudget => exact absurd hfuel (not_fueled_of_budget hrun hbudget)
    | fault _ hiterate' => exact nomatch hiterate.symm.trans hiterate'
    | next _ hiterate' hrest' => cases hiterate.symm.trans hiterate'; exact ih hrest'

/-! ### What a run's result says -/

theorem finishRun_of_run {s : State} {r : Run} (status : Status) (hrun : s.run = some r) :
    finishRun status s =
      { status := status, budget := r.budget, diagnostics := r.diagnostics, accesses := r.accesses,
        state := s.endRun } := by
  simp only [finishRun, State.currentRun_of_run hrun]

/-- The engine hands back the accesses made with their number of cycles spent, and it stops for want of budget only when
none is left, at -4 or above (41_engine.md R131, R136, R137). -/
theorem RunsTo.outputs {strict : Bool} {s : State} {result : RunResult} {r : Run} (h : RunsTo strict s result)
    (hrun : s.run = some r) :
    (∃ accesses, result.accesses = r.accesses ++ accesses ∧ r.budget - result.budget = (accesses.length : Int) ∧
      (0 < r.budget → 1 ≤ accesses.length)) ∧
    (result.status = .exhausted → (-4 ≤ r.budget → -4 ≤ result.budget) ∧ result.budget ≤ 0) := by
  induction h generalizing r with
  | exhausted hrun' hbudget =>
    obtain rfl := Option.some.inj (hrun.symm.trans hrun')
    rw [finishRun_of_run _ hrun]
    exact ⟨⟨[], (List.append_nil _).symm, Int.sub_self _, fun hpos => absurd hpos (Int.not_lt.mpr hbudget)⟩,
      fun _ => ⟨id, hbudget⟩⟩
  | @fault s f hfuel hiterate =>
    obtain ⟨r', hrun', diagnostics, accesses, rfl, hlower, -⟩ :=
      extends_of_handsOn_iterate hrun (hiterate ▸ handsOn_fault f)
    rw [finishRun_of_run _ hrun']
    refine ⟨⟨accesses, rfl, Int.sub_sub_self _ _, fun _ => hlower⟩, fun hstatus => ?_⟩
    cases f <;> exact nomatch hstatus
  | next hfuel hiterate _ ih =>
    obtain ⟨r', hrun', diagnostics, accesses, rfl, hlower, hupper⟩ :=
      extends_of_handsOn_iterate hrun (handsOn_of_next hiterate)
    have hpos := budget_pos_of_fueled hfuel hrun
    obtain ⟨⟨later, hlater, hcost, -⟩, hexhausted⟩ := ih hrun'
    refine ⟨⟨accesses ++ later, ?_, ?_, fun _ => ?_⟩, fun hstatus => ?_⟩
    · rw [hlater, List.append_assoc]
    · rw [List.length_append]; push_cast; simp only at hcost; omega
    · rw [List.length_append]; omega
    · obtain ⟨hfloor, hend⟩ := hexhausted hstatus
      exact ⟨fun _ => hfloor (by simp only; omega), hend⟩

/-- Without strict mode an iteration stops only by OutOfRange (60_exceptions.md R202, R204). -/
theorem fault_of_iterate_lenient {s : State} {f : Fault} (h : iterate false s = .fault f) :
    ∃ ea, f.status = .outOfRange ea := by
  obtain ⟨i, rest, -, hexec⟩ | ⟨-, -, hunhandled⟩ := iterate_cases false s
  · obtain ⟨ea, -, -, rfl⟩ := fault_of_exec (hexec.symm.trans h)
    exact ⟨ea, rfl⟩
  · exact nomatch hunhandled.symm.trans h

theorem RunsTo.status_lenient {s : State} {result : RunResult} (h : RunsTo false s result) (a : Word) (op : Byte) :
    result.status ≠ .unhandledStop a op := by
  induction h with
  | exhausted => exact nofun
  | fault _ hiterate =>
    obtain ⟨ea, hstatus⟩ := fault_of_iterate_lenient hiterate
    exact fun h => nomatch hstatus.symm.trans h
  | next _ _ _ ih => exact ih

theorem RunsTo.idle {strict : Bool} {s : State} {result : RunResult} (h : RunsTo strict s result) :
    result.state.runState = .idle := by
  induction h with
  | exhausted | fault => rfl
  | next _ _ _ ih => exact ih

/-! ### A run is the repetition of the step -/

theorem step_of_fueled {s : State} (h : s.fueled) : step s = iterate false s := stepWith_fueled h

/-- The step repeated, one step taken off (41_engine.md R131). -/
theorem coreRun_succ {s t : State} {outcome : Host.Outcome State Fault Refusal} {k : Nat} (hstep : step s = .next t)
    (h : Host.Core.run core k t = outcome) : Host.Core.run core (k + 1) s = outcome := by
  have hcore : core.step s = .next t := hstep
  simp only [Host.Core.run, hcore]
  exact h

theorem coreRun_one_fault {s : State} {f : Fault} (hstep : step s = .fault f) :
    Host.Core.run core 1 s = .fault f := by
  have hcore : core.step s = .fault f := hstep
  simp only [Host.Core.run, hcore]

/-- A run is as many steps as it has iterations, at most one for each cycle, and ends as the last state or fault says
(41_engine.md R131, R137). -/
theorem RunsTo.repeats_step {s : State} {result : RunResult} {r : Run} (h : RunsTo false s result)
    (hrun : s.run = some r) :
    ∃ k, k ≤ r.budget.toNat ∧
      ((∃ u ru, Host.Core.run core k s = .next u ∧ u.run = some ru ∧ ru.budget ≤ 0 ∧
          result = finishRun .exhausted u) ∨
        ∃ f rf, Host.Core.run core k s = .fault f ∧ f.stopped.run = some rf ∧
          result = finishRun f.status f.stopped) := by
  induction h generalizing r with
  | @exhausted s _ hrun' hbudget => exact ⟨0, Nat.zero_le _, .inl ⟨s, _, rfl, hrun', hbudget, rfl⟩⟩
  | @fault s f hfuel hiterate =>
    obtain ⟨rf, hstopped, -⟩ := extends_of_handsOn_iterate hrun (hiterate ▸ handsOn_fault f)
    have hpos := budget_pos_of_fueled hfuel hrun
    exact ⟨1, by omega, .inr ⟨f, rf, coreRun_one_fault ((step_of_fueled hfuel).trans hiterate), hstopped, rfl⟩⟩
  | @next s t _ hfuel hiterate _ ih =>
    obtain ⟨r', hrun', _, accesses, rfl, hlower, -⟩ :=
      extends_of_handsOn_iterate hrun (handsOn_of_next hiterate)
    have hpos := budget_pos_of_fueled hfuel hrun
    have hstep : step s = .next t := (step_of_fueled hfuel).trans hiterate
    obtain ⟨k, hk, hend⟩ := ih hrun'
    refine ⟨k + 1, by simp only at hk; omega, hend.imp ?_ ?_⟩
    · exact fun ⟨u, ru, hsteps, hu⟩ => ⟨u, ru, coreRun_succ hstep hsteps, hu⟩
    · exact fun ⟨f, rf, hsteps, hf⟩ => ⟨f, rf, coreRun_succ hstep hsteps, hf⟩

/-! ### A run that goes on from another's outputs -/

/-- The outputs and the budget of a run, after an earlier run's. -/
def Run.after (r earlier : Run) : Run :=
  { budget := earlier.budget + r.budget
    diagnostics := earlier.diagnostics ++ r.diagnostics
    accesses := earlier.accesses ++ r.accesses }

/-- A state whose run goes on from an earlier run: it differs from `s` in the run's outputs and budget alone. -/
def State.after (s : State) (earlier : Run) : State := { s with run := s.run.map fun r => r.after earlier }

/-- A result with an earlier run's outputs before its own. -/
def RunResult.after (result : RunResult) (earlier : Run) : RunResult :=
  { result with
    budget := earlier.budget + result.budget
    diagnostics := earlier.diagnostics ++ result.diagnostics
    accesses := earlier.accesses ++ result.accesses }

section

variable (s : State) (earlier : Run)

@[simp] theorem State.getReg_after (r : Reg) : (s.after earlier).getReg r = s.getReg r := by cases r <;> rfl

@[simp] theorem effectiveAddress_after (i : Instr) : effectiveAddress (s.after earlier) i = effectiveAddress s i := by
  cases i <;> rfl

@[simp] theorem pointerAccesses_after (i : Instr) : pointerAccesses (s.after earlier) i = pointerAccesses s i := by
  cases i <;> rfl

theorem fetchesAt_after (pc : Word) (n : Nat) : fetchesAt (s.after earlier) pc n = fetchesAt s pc n := by
  induction n generalizing pc with
  | zero => rfl
  | succ n ih => exact congrArg (_ :: ·) (ih (pc + 1))

/-- Charging accesses to a run commutes with putting it after another. -/
@[simp] theorem State.afterAccesses_after (n : Nat) (further : List Access) :
    (s.after earlier).afterAccesses n further = (s.afterAccesses n further).after earlier := by
  simp only [State.afterAccesses, fetchesAt_after]
  simp only [State.after, Option.map_map, Function.comp_def, Run.after, List.append_assoc, Int.add_sub_assoc]

@[simp] theorem State.afterLoad_after (r : Reg) (v : Byte) (n : Nat) (accesses : List Access) :
    (s.after earlier).afterLoad r v n accesses = (s.afterLoad r v n accesses).after earlier := by
  simp only [State.afterLoad, State.afterAccesses_after]
  cases r <;> rfl

@[simp] theorem State.afterLoadFrom_after (r : Reg) (ea n : Nat) (accesses : List Access) :
    (s.after earlier).afterLoadFrom r ea n accesses = (s.afterLoadFrom r ea n accesses).after earlier :=
  s.afterLoad_after earlier r _ n _

@[simp] theorem State.afterStore_after (ea : Nat) (v : Byte) (n : Nat) (accesses : List Access) :
    (s.after earlier).afterStore ea v n accesses = (s.afterStore ea v n accesses).after earlier := by
  simp only [State.afterStore, State.afterAccesses_after]
  rfl

@[simp] theorem State.resolved_after (i : Instr) : (s.after earlier).resolved i = (s.resolved i).after earlier := by
  simp only [State.resolved, pointerAccesses_after, State.afterAccesses_after]

@[simp] theorem State.emit_after (d : Diagnostic) : (s.after earlier).emit d = (s.emit d).after earlier := by
  simp only [State.emit, State.after, Option.map_map, Function.comp_def, Run.after, List.append_assoc]

@[simp] theorem State.afterUnhandled_after : (s.after earlier).afterUnhandled = s.afterUnhandled.after earlier := by
  simp only [State.afterUnhandled, State.afterAccesses_after, State.emit_after]
  rfl

end

/-- A fault with its state's run after an earlier one. -/
def Fault.after (earlier : Run) : Fault → Fault
  | .outOfRange ea t => .outOfRange ea (t.after earlier)
  | .unhandledStop a op t => .unhandledStop a op (t.after earlier)

/-- An outcome with the runs of the states it hands on after an earlier one. -/
def outcomeAfter (earlier : Run) : Host.Outcome State Fault Refusal → Host.Outcome State Fault Refusal
  | .next t => .next (t.after earlier)
  | .fault f => .fault (f.after earlier)
  | .refused reason => .refused reason

theorem exec_after (i : Instr) (s : State) (earlier : Run) :
    exec i (s.after earlier) = outcomeAfter earlier (exec i s) := by
  simp only [exec_eq, effectiveAddress_after, pointerAccesses_after, State.getReg_after, State.afterLoad_after,
    State.afterLoadFrom_after, State.afterStore_after, State.resolved_after]
  cases effectiveAddress s i with
  | none => rfl
  | some ea =>
    by_cases hlt : ea < 65536
    · cases i.entry.action <;> simp only [hlt, if_true] <;> rfl
    · cases i.entry.action <;> simp only [hlt, if_false] <;> rfl

/-- What an iteration does goes by nothing an earlier run has put out, nor by its budget (41_engine.md R132). -/
theorem iterate_after (strict : Bool) (s : State) (earlier : Run) :
    iterate strict (s.after earlier) = outcomeAfter earlier (iterate strict s) := by
  have hcode : (s.after earlier).codeBytes = s.codeBytes := rfl
  have hunhandled : unhandled strict (s.after earlier) = outcomeAfter earlier (unhandled strict s) := by
    rw [unhandled_eq, unhandled_eq, State.afterUnhandled_after]
    cases strict <;> rfl
  rw [iterate, iterate, hcode]
  cases decode s.codeBytes with
  | instr i rest => exact exec_after i s earlier
  | unassigned | truncated => exact hunhandled

theorem State.fueled_after {s : State} {earlier : Run} (h : s.fueled) (hbudget : 0 ≤ earlier.budget) :
    (s.after earlier).fueled := by
  obtain ⟨r, hrun, hpos⟩ := h
  exact ⟨r.after earlier, by rw [State.after, hrun]; rfl, by simp only [Run.after]; omega⟩

theorem finishRun_after {s : State} {r : Run} (status : Status) (earlier : Run) (hrun : s.run = some r) :
    finishRun status (s.after earlier) = (finishRun status s).after earlier := by
  have hafter : (s.after earlier).run = some (r.after earlier) := by rw [State.after, hrun]; rfl
  rw [finishRun_of_run _ hafter, finishRun_of_run _ hrun]
  rfl

theorem runsTo_fault_after {strict : Bool} {s : State} {f : Fault} {earlier : Run} (hfuel : s.fueled)
    (hiterate : iterate strict s = .fault f) (hbudget : 0 ≤ earlier.budget) :
    RunsTo strict (s.after earlier) ((finishRun f.status f.stopped).after earlier) := by
  obtain ⟨r, hrun, -⟩ := id hfuel
  obtain ⟨rf, hstopped, -⟩ := extends_of_handsOn_iterate hrun (hiterate ▸ handsOn_fault f)
  have hiterate' : iterate strict (s.after earlier) = .fault (f.after earlier) := by
    rw [iterate_after, hiterate, outcomeAfter]
  rw [← finishRun_after _ _ hstopped]
  cases f <;> exact .fault (State.fueled_after hfuel hbudget) hiterate'

theorem iterate_next_after {strict : Bool} {s t : State} (earlier : Run) (hiterate : iterate strict s = .next t) :
    iterate strict (s.after earlier) = .next (t.after earlier) := by
  rw [iterate_after, hiterate, outcomeAfter]

/-- A run that goes on from outputs alone, with no budget of an earlier run left, ends the same with them before its own. -/
theorem RunsTo.after {strict : Bool} {s : State} {result : RunResult} {earlier : Run} (h : RunsTo strict s result)
    (hspent : earlier.budget = 0) : RunsTo strict (s.after earlier) (result.after earlier) := by
  induction h with
  | @exhausted s r hrun hbudget =>
    rw [← finishRun_after _ _ hrun]
    refine .exhausted (r := r.after earlier) (by rw [State.after, hrun]; rfl) ?_
    simp only [Run.after]
    omega
  | fault hfuel hiterate => exact runsTo_fault_after hfuel hiterate hspent.ge
  | next hfuel hiterate _ ih =>
    exact .next (State.fueled_after hfuel hspent.ge) (iterate_next_after earlier hiterate) ih

/-- The outputs of a result as a run with no budget left. -/
def RunResult.spent (result : RunResult) : Run :=
  { budget := 0, diagnostics := result.diagnostics, accesses := result.accesses }

/-- Where a run ends exhausted at budget exactly 0, the run with `b2` cycles more goes on as a new run of `b2` cycles does,
the first one's outputs before its own (41_engine.md section 4). -/
theorem RunsTo.split {strict : Bool} {s : State} {first second : RunResult} {b2 : Int} (hb2 : 0 ≤ b2)
    (hfirst : RunsTo strict s first) (hstatus : first.status = .exhausted) (hbudget : first.budget = 0)
    (hsecond : RunsTo strict (first.state.startRun b2) second) :
    RunsTo strict (s.after ⟨b2, [], []⟩) (second.after first.spent) := by
  induction hfirst with
  | @exhausted s r hrun _ =>
    rw [finishRun_of_run _ hrun] at hbudget hsecond ⊢
    have hstart : s.after ⟨b2, [], []⟩ =
        (s.endRun.startRun b2).after { budget := 0, diagnostics := r.diagnostics, accesses := r.accesses } := by
      simp only at hbudget
      simp [State.after, State.startRun, State.endRun, Run.after, hrun, hbudget]
    rw [hstart]
    exact hsecond.after rfl
  | @fault s f => cases f <;> exact nomatch hstatus
  | next hfuel hiterate _ ih =>
    exact .next (State.fueled_after hfuel hb2) (iterate_next_after _ hiterate) (ih hstatus hbudget hsecond)

/-! ### The obligations -/

/-- Settles O55: the run's result is `RunsTo.outputs` of a run started with no outputs. -/
theorem runEndsIdleWithBoundedOvershoot : Obligations.RunEndsIdleWithBoundedOvershoot := by
  intro strict s b0 hb0
  have hrun := s.runsTo_execute strict b0
  obtain ⟨⟨accesses, haccesses, hcost, hsome⟩, hexhausted⟩ := hrun.outputs rfl
  rw [List.nil_append] at haccesses
  refine ⟨hrun.idle, haccesses ▸ hcost, haccesses ▸ hsome hb0, fun hstatus => ?_, ?_⟩
  · obtain ⟨hfloor, hend⟩ := hexhausted hstatus
    exact ⟨hfloor (by simp only; omega), hend⟩
  · rintro rfl
    exact hrun.status_lenient

/-- Settles O56: the single run's result is unique, and `RunsTo.split` says what it is. -/
theorem splitRunEqualsSingleRun : Obligations.SplitRunEqualsSingleRun := by
  intro strict s b1 b2 hb2 first second single hstatus hbudget
  have hjoined := RunsTo.split hb2 (s.runsTo_execute strict b1) hstatus hbudget (first.state.runsTo_execute strict b2)
  have hstart : (s.startRun b1).after ⟨b2, [], []⟩ = s.startRun (b1 + b2) := by
    simp only [State.after, State.startRun, Option.map_some, Run.after, List.append_nil, Int.add_comm b2]
  have hsingle : single = second.after first.spent := (s.runsTo_execute strict (b1 + b2)).unique (hstart ▸ hjoined)
  rw [hsingle]
  exact ⟨rfl, rfl, Int.zero_add _, rfl, rfl⟩

/-- Settles O57: the steps are those of `RunsTo.repeats_step`, and the status says which of its two ends they have. -/
theorem executeRepeatsTheStep : Obligations.ExecuteRepeatsTheStep := by
  intro s b0 result
  obtain ⟨k, hk, ⟨u, ru, hsteps, hrun, hbudget, hresult⟩ | ⟨f, rf, hsteps, hrun, hresult⟩⟩ :=
    (s.runsTo_execute false b0).repeats_step rfl
  · rw [finishRun_of_run _ hrun] at hresult
    simp only [result, hresult]
    exact ⟨fun _ => ⟨k, u, hk, hsteps, hrun, stepWith_of_budget_nonpos Config.strictUnhandled hrun hbudget⟩, nofun⟩
  · rw [finishRun_of_run _ hrun] at hresult
    simp only [result, hresult]
    cases f with
    | outOfRange ea t =>
      refine ⟨nofun, fun ea' hstatus => ?_⟩
      cases hstatus
      exact ⟨k, t, hk, hsteps, hrun, rfl⟩
    | unhandledStop => exact ⟨nofun, nofun⟩

/-- Settles O54: the run has fuel for one iteration, and it ends with what that hands on. -/
theorem executeOneIsASingleStep : Obligations.ExecuteOneIsASingleStep := by
  intro strict s t h
  have hfuel : (s.startRun 1).fueled := ⟨_, rfl, Int.one_pos⟩
  rw [stepWith_fueled hfuel] at h
  have hexecute : s.execute strict 1 = runLoop strict 1 (s.startRun 1) := rfl
  obtain ⟨u, hu, hloop⟩ | ⟨_, u, hu, hloop⟩ | ⟨_, _, u, hu, hloop⟩ := runLoop_step strict 0 hfuel
  all_goals
    have hstate : t = u := by simpa [handsOn, hu, eq_comm] using h
    rw [hexecute, hloop, hstate]
    rfl

/-- Settles O53: the budget gives the loop no fuel, and an idle state is the one its run is taken from again. -/
theorem nonpositiveBudgetRunsNothing : Obligations.NonpositiveBudgetRunsNothing := by
  intro strict s b0 hidle hb0
  have hrestored : (s.startRun b0).endRun = s := by
    simp only [State.startRun, State.endRun, ← s.runState_idle_iff.mp hidle]
  rw [State.execute, Int.toNat_of_nonpos hb0, runLoop_stops (.inl rfl), finishRun_of_run _ (s.startRun_run b0),
    hrestored]

end Sys2Proof.Machine
